-- ==== Sys2Proof/Word.lean ====
section
/-! DEFINITION. The machine's word and byte (00_scope.md R7, R9): every register value, address, pc value and immediate is a
32-bit bit vector, read as signed or unsigned by the rule that uses it; a memory cell is 8 bits. -/

namespace Sys2Proof

/-- A 32-bit value (`XLEN`, R7, R9). `BitVec.toInt` is the spec's `signed(v)`, `BitVec.toNat` its `unsigned(v)`. -/
abbrev Word := BitVec 32

/-- One byte of memory (R28). -/
abbrev Byte := BitVec 8

end Sys2Proof
end

