-- ==== Sys2Proof/Config.lean ====
section
/-! DEFINITION. The implementation parameters of 00_scope.md R7: the open ones as a structure that the state carries unchanged
(assumption log 1), the fixed one as a constant. -/

namespace Sys2Proof

/-- The open construction parameters (R7, 92 "Open parameters"). `INIT_MEM` is the third: it is the memory a launch state
starts with (assumption log 3). -/
structure Config where
  /-- `MEM_SIZE`, the number of bytes of memory. -/
  memSize : Nat
  /-- `EXT_M`, whether the multiply/divide group exists. -/
  extM : Bool
deriving DecidableEq, Repr

/-- R7's constraint on the parameters: `MEM_SIZE mod 4 = 0` and `4 <= MEM_SIZE <= 2^31 - 4` (assumption log 8). -/
def Config.wf (c : Config) : Bool :=
  c.memSize % 4 == 0 && decide (4 ≤ c.memSize) && decide (c.memSize ≤ 2 ^ 31 - 4)

/-- The parameters of `State.reset`: the size of the spec's examples (92 D2) and the default `EXT_M` (R7).
DESIGN CHOICE, unsafe (assumption log 2): the spec gives `MEM_SIZE` no value. -/
def Config.standard : Config := { memSize := 0x1000, extM := true }

/-- `RESET_PC` (R7, R34). -/
def resetPc : Word := 0x00000000

end Sys2Proof
end

