-- ==== Sys2Proof/Syntax.lean ====
section
/-! DEFINITION. The abstract syntax: one constructor of `Instr` for each of the 46 rows of spec/opcode_table.json
(30_encoding.md R69). Immediates are the 32-bit values the decoder assembles (R11, R61 to R65); register indices and shift
amounts are numbers below 32 (R54, R66). -/

namespace Sys2Proof

/-- A general register's index, 0 to 31 (R15, R54). -/
abbrev Reg := Fin 32

/-- A 5-bit shift amount, 0 to 31 (R66). -/
abbrev Shamt := Fin 32

/-- The six formats (R24, R55 to R60). -/
inductive IType where
  | R | I | S | B | U | J
deriving DecidableEq, Repr

/-- The instructions of the decode map (R69), operands in the order of the assembler syntax (R75), except that a store has its
base register first. -/
inductive Instr where
  -- upper immediate (44_upper_immediate.md)
  | lui (rd : Reg) (imm : Word)
  | auipc (rd : Reg) (imm : Word)
  -- control transfer (43_control_transfer.md)
  | jal (rd : Reg) (imm : Word)
  | jalr (rd rs1 : Reg) (imm : Word)
  | beq (rs1 rs2 : Reg) (imm : Word)
  | bne (rs1 rs2 : Reg) (imm : Word)
  | blt (rs1 rs2 : Reg) (imm : Word)
  | bge (rs1 rs2 : Reg) (imm : Word)
  | bltu (rs1 rs2 : Reg) (imm : Word)
  | bgeu (rs1 rs2 : Reg) (imm : Word)
  -- loads and stores (42_load_store.md)
  | lb (rd rs1 : Reg) (imm : Word)
  | lh (rd rs1 : Reg) (imm : Word)
  | lw (rd rs1 : Reg) (imm : Word)
  | lbu (rd rs1 : Reg) (imm : Word)
  | lhu (rd rs1 : Reg) (imm : Word)
  | sb (rs1 rs2 : Reg) (imm : Word)
  | sh (rs1 rs2 : Reg) (imm : Word)
  | sw (rs1 rs2 : Reg) (imm : Word)
  -- register-immediate (41_integer_alu.md, OP-IMM)
  | addi (rd rs1 : Reg) (imm : Word)
  | slti (rd rs1 : Reg) (imm : Word)
  | sltiu (rd rs1 : Reg) (imm : Word)
  | xori (rd rs1 : Reg) (imm : Word)
  | ori (rd rs1 : Reg) (imm : Word)
  | andi (rd rs1 : Reg) (imm : Word)
  | slli (rd rs1 : Reg) (shamt : Shamt)
  | srli (rd rs1 : Reg) (shamt : Shamt)
  | srai (rd rs1 : Reg) (shamt : Shamt)
  -- register-register (41_integer_alu.md, OP)
  | add (rd rs1 rs2 : Reg)
  | sub (rd rs1 rs2 : Reg)
  | sll (rd rs1 rs2 : Reg)
  | slt (rd rs1 rs2 : Reg)
  | sltu (rd rs1 rs2 : Reg)
  | xor (rd rs1 rs2 : Reg)
  | srl (rd rs1 rs2 : Reg)
  | sra (rd rs1 rs2 : Reg)
  | or (rd rs1 rs2 : Reg)
  | and (rd rs1 rs2 : Reg)
  -- memory ordering (46_fence_system.md); the fields are ignored by execution but are part of the word (R138)
  | fence (fm pred succ : BitVec 4) (rd rs1 : Reg)
  -- multiply and divide (45_muldiv.md, present when EXT_M = true)
  | mul (rd rs1 rs2 : Reg)
  | mulh (rd rs1 rs2 : Reg)
  | mulhsu (rd rs1 rs2 : Reg)
  | mulhu (rd rs1 rs2 : Reg)
  | div (rd rs1 rs2 : Reg)
  | divu (rd rs1 rs2 : Reg)
  | rem (rd rs1 rs2 : Reg)
  | remu (rd rs1 rs2 : Reg)
deriving DecidableEq, Repr

end Sys2Proof
end

