-- ==== Sys2Proof/WellFormed.lean ====
section
/-! DEFINITION. Which instruction terms are instructions of the hardware: each immediate is one its format can hold
(30_encoding.md R61 to R65), and an instruction of the RV32M group exists only with `EXT_M = true` (R69). Assumption log 12. -/

namespace Sys2Proof

/-- The range of the I- and S-immediates, `-2048 .. 2047` (R61, R62). -/
def immFits12 (imm : Word) : Bool := decide (-2048 ≤ imm.toInt) && decide (imm.toInt ≤ 2047)

/-- The B-immediates: `-4096 .. 4094`, always even (R63). -/
def immFitsB (imm : Word) : Bool :=
  decide (-4096 ≤ imm.toInt) && decide (imm.toInt ≤ 4094) && imm.toNat % 2 == 0

/-- The U-immediates: any multiple of `0x1000` (R64). -/
def immFitsU (imm : Word) : Bool := imm.toNat % 0x1000 == 0

/-- The J-immediates: `-1048576 .. 1048574`, always even (R65). -/
def immFitsJ (imm : Word) : Bool :=
  decide (-1048576 ≤ imm.toInt) && decide (imm.toInt ≤ 1048574) && imm.toNat % 2 == 0

/-- Every operand of the instruction is one its encoding can hold. -/
def Instr.wellFormed : Instr → Bool
  | .lui _ imm | .auipc _ imm => immFitsU imm
  | .jal _ imm => immFitsJ imm
  | .beq _ _ imm | .bne _ _ imm | .blt _ _ imm | .bge _ _ imm | .bltu _ _ imm | .bgeu _ _ imm => immFitsB imm
  | .jalr _ _ imm | .lb _ _ imm | .lh _ _ imm | .lw _ _ imm | .lbu _ _ imm | .lhu _ _ imm
  | .sb _ _ imm | .sh _ _ imm | .sw _ _ imm
  | .addi _ _ imm | .slti _ _ imm | .sltiu _ _ imm | .xori _ _ imm | .ori _ _ imm | .andi _ _ imm => immFits12 imm
  | .slli _ _ _ | .srli _ _ _ | .srai _ _ _
  | .add _ _ _ | .sub _ _ _ | .sll _ _ _ | .slt _ _ _ | .sltu _ _ _ | .xor _ _ _ | .srl _ _ _ | .sra _ _ _
  | .or _ _ _ | .and _ _ _ | .fence _ _ _ _ _
  | .mul _ _ _ | .mulh _ _ _ | .mulhsu _ _ _ | .mulhu _ _ _
  | .div _ _ _ | .divu _ _ _ | .rem _ _ _ | .remu _ _ _ => true

/-- The instruction belongs to the RV32M group (R69, the rows marked `EXT_M`). -/
def Instr.needsM : Instr → Bool
  | .mul _ _ _ | .mulh _ _ _ | .mulhsu _ _ _ | .mulhu _ _ _
  | .div _ _ _ | .divu _ _ _ | .rem _ _ _ | .remu _ _ _ => true
  | .lui _ _ | .auipc _ _ | .jal _ _ | .jalr _ _ _
  | .beq _ _ _ | .bne _ _ _ | .blt _ _ _ | .bge _ _ _ | .bltu _ _ _ | .bgeu _ _ _
  | .lb _ _ _ | .lh _ _ _ | .lw _ _ _ | .lbu _ _ _ | .lhu _ _ _ | .sb _ _ _ | .sh _ _ _ | .sw _ _ _
  | .addi _ _ _ | .slti _ _ _ | .sltiu _ _ _ | .xori _ _ _ | .ori _ _ _ | .andi _ _ _
  | .slli _ _ _ | .srli _ _ _ | .srai _ _ _
  | .add _ _ _ | .sub _ _ _ | .sll _ _ _ | .slt _ _ _ | .sltu _ _ _ | .xor _ _ _ | .srl _ _ _ | .sra _ _ _
  | .or _ _ _ | .and _ _ _ | .fence _ _ _ _ _ => false

/-- The instruction exists on an engine with this `EXT_M` (R69). -/
def Instr.available (extM : Bool) (i : Instr) : Bool := !i.needsM || extM

end Sys2Proof
end

