-- ==== Sys2Proof/Decode.lean ====
section
/-! DEFINITION. The decoder of 30_encoding.md (R53 to R74) and, written from the same field tables, the encoder; the decoded
record of 10_state.md R24 as a view of an instruction; and the opcode table (R69, spec/opcode_table.json) as data. -/

namespace Sys2Proof

/-! ## Fields of a word (R54) -/

/-- `opcode = w[6:0]`. -/
def opcodeOf (w : Word) : BitVec 7 := w.extractLsb' 0 7
/-- `rd = w[11:7]`. -/
def rdOf (w : Word) : Reg := (w.extractLsb' 7 5).toFin
/-- `funct3 = w[14:12]`. -/
def funct3Of (w : Word) : BitVec 3 := w.extractLsb' 12 3
/-- `rs1 = w[19:15]`. -/
def rs1Of (w : Word) : Reg := (w.extractLsb' 15 5).toFin
/-- `rs2 = w[24:20]`. -/
def rs2Of (w : Word) : Reg := (w.extractLsb' 20 5).toFin
/-- `shamt = w[24:20]` (R66). -/
def shamtOf (w : Word) : Shamt := (w.extractLsb' 20 5).toFin
/-- `funct7 = w[31:25]`. -/
def funct7Of (w : Word) : BitVec 7 := w.extractLsb' 25 7

/-! ## Extensions (R9) -/

/-- `sext_N(v)`: the low `n` bits of `v`, sign-extended to 32 bits. -/
def sext (n : Nat) (v : Word) : Word := (v.setWidth n).signExtend 32
/-- `zext_N(v)`: the low `n` bits of `v`, zero-extended to 32 bits. -/
def zext (n : Nat) (v : Word) : Word := (v.setWidth n).setWidth 32

/-! ## Immediate assembly (R61 to R65) -/

/-- R61: `imm_I = sext_12(w[31:20])`. -/
def immI (w : Word) : Word := (w.extractLsb' 20 12).signExtend 32
/-- R62: `imm_S = sext_12({w[31:25], w[11:7]})`. -/
def immS (w : Word) : Word := (w.extractLsb' 25 7 ++ w.extractLsb' 7 5).signExtend 32
/-- R63: `imm_B = sext_13({w[31], w[7], w[30:25], w[11:8], 0})`. -/
def immB (w : Word) : Word :=
  (w.extractLsb' 31 1 ++ w.extractLsb' 7 1 ++ w.extractLsb' 25 6 ++ w.extractLsb' 8 4 ++ 0#1).signExtend 32
/-- R64: `imm_U = {w[31:12], 12{0}}`. -/
def immU (w : Word) : Word := w.extractLsb' 12 20 ++ 0#12
/-- R65: `imm_J = sext_21({w[31], w[19:12], w[20], w[30:21], 0})`. -/
def immJ (w : Word) : Word :=
  (w.extractLsb' 31 1 ++ w.extractLsb' 12 8 ++ w.extractLsb' 20 1 ++ w.extractLsb' 21 10 ++ 0#1).signExtend 32

/-! ## The decoder (R68 to R74) -/

/-- Why a word is no instruction. Every reason is the spec's one error `DecodeError` (R70); the names are the model's
(assumption log 9). -/
inductive Reject where
  /-- The major opcode is none of R68's: SYSTEM, AMO, custom, compressed and all others (R70, R73, R140). -/
  | unknownOpcode
  /-- The opcode is recognized, the funct combination is unlisted (R71, R139). -/
  | unlistedFunct
  /-- A row of the RV32M group on an engine with `EXT_M = false` (R69, R71). -/
  | extMAbsent
deriving DecidableEq, Repr

/-- BRANCH, opcode 1100011 (R69, R71). -/
def decodeBranch (w : Word) : Except Reject Instr :=
  match funct3Of w with
  | 0b000#3 => .ok (.beq (rs1Of w) (rs2Of w) (immB w))
  | 0b001#3 => .ok (.bne (rs1Of w) (rs2Of w) (immB w))
  | 0b100#3 => .ok (.blt (rs1Of w) (rs2Of w) (immB w))
  | 0b101#3 => .ok (.bge (rs1Of w) (rs2Of w) (immB w))
  | 0b110#3 => .ok (.bltu (rs1Of w) (rs2Of w) (immB w))
  | 0b111#3 => .ok (.bgeu (rs1Of w) (rs2Of w) (immB w))
  | _ => .error .unlistedFunct

/-- LOAD, opcode 0000011 (R69, R71). -/
def decodeLoad (w : Word) : Except Reject Instr :=
  match funct3Of w with
  | 0b000#3 => .ok (.lb (rdOf w) (rs1Of w) (immI w))
  | 0b001#3 => .ok (.lh (rdOf w) (rs1Of w) (immI w))
  | 0b010#3 => .ok (.lw (rdOf w) (rs1Of w) (immI w))
  | 0b100#3 => .ok (.lbu (rdOf w) (rs1Of w) (immI w))
  | 0b101#3 => .ok (.lhu (rdOf w) (rs1Of w) (immI w))
  | _ => .error .unlistedFunct

/-- STORE, opcode 0100011 (R69, R71). -/
def decodeStore (w : Word) : Except Reject Instr :=
  match funct3Of w with
  | 0b000#3 => .ok (.sb (rs1Of w) (rs2Of w) (immS w))
  | 0b001#3 => .ok (.sh (rs1Of w) (rs2Of w) (immS w))
  | 0b010#3 => .ok (.sw (rs1Of w) (rs2Of w) (immS w))
  | _ => .error .unlistedFunct

/-- OP-IMM, opcode 0010011 (R66, R69, R71). -/
def decodeOpImm (w : Word) : Except Reject Instr :=
  match funct3Of w with
  | 0b000#3 => .ok (.addi (rdOf w) (rs1Of w) (immI w))
  | 0b001#3 =>
    match funct7Of w with
    | 0b0000000#7 => .ok (.slli (rdOf w) (rs1Of w) (shamtOf w))
    | _ => .error .unlistedFunct
  | 0b010#3 => .ok (.slti (rdOf w) (rs1Of w) (immI w))
  | 0b011#3 => .ok (.sltiu (rdOf w) (rs1Of w) (immI w))
  | 0b100#3 => .ok (.xori (rdOf w) (rs1Of w) (immI w))
  | 0b101#3 =>
    match funct7Of w with
    | 0b0000000#7 => .ok (.srli (rdOf w) (rs1Of w) (shamtOf w))
    | 0b0100000#7 => .ok (.srai (rdOf w) (rs1Of w) (shamtOf w))
    | _ => .error .unlistedFunct
  | 0b110#3 => .ok (.ori (rdOf w) (rs1Of w) (immI w))
  | _ => .ok (.andi (rdOf w) (rs1Of w) (immI w))

/-- OP with funct7 0000000 (R69). -/
def decodeOpBase (w : Word) : Instr :=
  match funct3Of w with
  | 0b000#3 => .add (rdOf w) (rs1Of w) (rs2Of w)
  | 0b001#3 => .sll (rdOf w) (rs1Of w) (rs2Of w)
  | 0b010#3 => .slt (rdOf w) (rs1Of w) (rs2Of w)
  | 0b011#3 => .sltu (rdOf w) (rs1Of w) (rs2Of w)
  | 0b100#3 => .xor (rdOf w) (rs1Of w) (rs2Of w)
  | 0b101#3 => .srl (rdOf w) (rs1Of w) (rs2Of w)
  | 0b110#3 => .or (rdOf w) (rs1Of w) (rs2Of w)
  | _ => .and (rdOf w) (rs1Of w) (rs2Of w)

/-- OP with funct7 0100000 (R69, R71). -/
def decodeOpAlt (w : Word) : Except Reject Instr :=
  match funct3Of w with
  | 0b000#3 => .ok (.sub (rdOf w) (rs1Of w) (rs2Of w))
  | 0b101#3 => .ok (.sra (rdOf w) (rs1Of w) (rs2Of w))
  | _ => .error .unlistedFunct

/-- OP with funct7 0000001, the RV32M group (R69). -/
def decodeOpMulDiv (w : Word) : Instr :=
  match funct3Of w with
  | 0b000#3 => .mul (rdOf w) (rs1Of w) (rs2Of w)
  | 0b001#3 => .mulh (rdOf w) (rs1Of w) (rs2Of w)
  | 0b010#3 => .mulhsu (rdOf w) (rs1Of w) (rs2Of w)
  | 0b011#3 => .mulhu (rdOf w) (rs1Of w) (rs2Of w)
  | 0b100#3 => .div (rdOf w) (rs1Of w) (rs2Of w)
  | 0b101#3 => .divu (rdOf w) (rs1Of w) (rs2Of w)
  | 0b110#3 => .rem (rdOf w) (rs1Of w) (rs2Of w)
  | _ => .remu (rdOf w) (rs1Of w) (rs2Of w)

/-- OP, opcode 0110011 (R69, R71). -/
def decodeOp (extM : Bool) (w : Word) : Except Reject Instr :=
  match funct7Of w with
  | 0b0000000#7 => .ok (decodeOpBase w)
  | 0b0100000#7 => decodeOpAlt w
  | 0b0000001#7 => if extM then .ok (decodeOpMulDiv w) else .error .extMAbsent
  | _ => .error .unlistedFunct

/-- JALR, opcode 1100111 (R69, R71). -/
def decodeJalr (w : Word) : Except Reject Instr :=
  match funct3Of w with
  | 0b000#3 => .ok (.jalr (rdOf w) (rs1Of w) (immI w))
  | _ => .error .unlistedFunct

/-- MISC-MEM, opcode 0001111: only FENCE (R138, R139). -/
def decodeMiscMem (w : Word) : Except Reject Instr :=
  match funct3Of w with
  | 0b000#3 =>
    .ok (.fence (w.extractLsb' 28 4) (w.extractLsb' 24 4) (w.extractLsb' 20 4) (rdOf w) (rs1Of w))
  | _ => .error .unlistedFunct

/-- `decode(w)`: a pure function of the word and of the parameter `EXT_M` (R67 to R70). -/
def decode (extM : Bool) (w : Word) : Except Reject Instr :=
  match opcodeOf w with
  | 0b0110111#7 => .ok (.lui (rdOf w) (immU w))
  | 0b0010111#7 => .ok (.auipc (rdOf w) (immU w))
  | 0b1101111#7 => .ok (.jal (rdOf w) (immJ w))
  | 0b1100111#7 => decodeJalr w
  | 0b1100011#7 => decodeBranch w
  | 0b0000011#7 => decodeLoad w
  | 0b0100011#7 => decodeStore w
  | 0b0010011#7 => decodeOpImm w
  | 0b0110011#7 => decodeOp extM w
  | 0b0001111#7 => decodeMiscMem w
  | _ => .error .unknownOpcode

/-! ## The encoder (R55 to R60, R66, R69) -/

/-- A register index (or shift amount) as a 5-bit field. -/
def regBits (r : Reg) : BitVec 5 := BitVec.ofFin r

/-- R55: `funct7 rs2 rs1 funct3 rd opcode`. -/
def encodeR (funct7 : BitVec 7) (rs2 rs1 : Reg) (funct3 : BitVec 3) (rd : Reg) (opcode : BitVec 7) : Word :=
  funct7 ++ regBits rs2 ++ regBits rs1 ++ funct3 ++ regBits rd ++ opcode

/-- R56: `imm[11:0] rs1 funct3 rd opcode`. -/
def encodeI (imm : Word) (rs1 : Reg) (funct3 : BitVec 3) (rd : Reg) (opcode : BitVec 7) : Word :=
  imm.extractLsb' 0 12 ++ regBits rs1 ++ funct3 ++ regBits rd ++ opcode

/-- R57: `imm[11:5] rs2 rs1 funct3 imm[4:0] opcode`. -/
def encodeS (imm : Word) (rs2 rs1 : Reg) (funct3 : BitVec 3) (opcode : BitVec 7) : Word :=
  imm.extractLsb' 5 7 ++ regBits rs2 ++ regBits rs1 ++ funct3 ++ imm.extractLsb' 0 5 ++ opcode

/-- R58: `imm[12] imm[10:5] rs2 rs1 funct3 imm[4:1] imm[11] opcode`. -/
def encodeB (imm : Word) (rs2 rs1 : Reg) (funct3 : BitVec 3) (opcode : BitVec 7) : Word :=
  imm.extractLsb' 12 1 ++ imm.extractLsb' 5 6 ++ regBits rs2 ++ regBits rs1 ++ funct3 ++ imm.extractLsb' 1 4
    ++ imm.extractLsb' 11 1 ++ opcode

/-- R59: `imm[31:12] rd opcode`. -/
def encodeU (imm : Word) (rd : Reg) (opcode : BitVec 7) : Word :=
  imm.extractLsb' 12 20 ++ regBits rd ++ opcode

/-- R60: `imm[20] imm[10:1] imm[11] imm[19:12] rd opcode`. -/
def encodeJ (imm : Word) (rd : Reg) (opcode : BitVec 7) : Word :=
  imm.extractLsb' 20 1 ++ imm.extractLsb' 1 10 ++ imm.extractLsb' 11 1 ++ imm.extractLsb' 12 8 ++ regBits rd ++ opcode

/-- The word of an instruction. -/
def encode : Instr → Word
  | .lui rd imm => encodeU imm rd 0b0110111#7
  | .auipc rd imm => encodeU imm rd 0b0010111#7
  | .jal rd imm => encodeJ imm rd 0b1101111#7
  | .jalr rd rs1 imm => encodeI imm rs1 0b000#3 rd 0b1100111#7
  | .beq rs1 rs2 imm => encodeB imm rs2 rs1 0b000#3 0b1100011#7
  | .bne rs1 rs2 imm => encodeB imm rs2 rs1 0b001#3 0b1100011#7
  | .blt rs1 rs2 imm => encodeB imm rs2 rs1 0b100#3 0b1100011#7
  | .bge rs1 rs2 imm => encodeB imm rs2 rs1 0b101#3 0b1100011#7
  | .bltu rs1 rs2 imm => encodeB imm rs2 rs1 0b110#3 0b1100011#7
  | .bgeu rs1 rs2 imm => encodeB imm rs2 rs1 0b111#3 0b1100011#7
  | .lb rd rs1 imm => encodeI imm rs1 0b000#3 rd 0b0000011#7
  | .lh rd rs1 imm => encodeI imm rs1 0b001#3 rd 0b0000011#7
  | .lw rd rs1 imm => encodeI imm rs1 0b010#3 rd 0b0000011#7
  | .lbu rd rs1 imm => encodeI imm rs1 0b100#3 rd 0b0000011#7
  | .lhu rd rs1 imm => encodeI imm rs1 0b101#3 rd 0b0000011#7
  | .sb rs1 rs2 imm => encodeS imm rs2 rs1 0b000#3 0b0100011#7
  | .sh rs1 rs2 imm => encodeS imm rs2 rs1 0b001#3 0b0100011#7
  | .sw rs1 rs2 imm => encodeS imm rs2 rs1 0b010#3 0b0100011#7
  | .addi rd rs1 imm => encodeI imm rs1 0b000#3 rd 0b0010011#7
  | .slti rd rs1 imm => encodeI imm rs1 0b010#3 rd 0b0010011#7
  | .sltiu rd rs1 imm => encodeI imm rs1 0b011#3 rd 0b0010011#7
  | .xori rd rs1 imm => encodeI imm rs1 0b100#3 rd 0b0010011#7
  | .ori rd rs1 imm => encodeI imm rs1 0b110#3 rd 0b0010011#7
  | .andi rd rs1 imm => encodeI imm rs1 0b111#3 rd 0b0010011#7
  | .slli rd rs1 shamt => encodeR 0b0000000#7 shamt rs1 0b001#3 rd 0b0010011#7
  | .srli rd rs1 shamt => encodeR 0b0000000#7 shamt rs1 0b101#3 rd 0b0010011#7
  | .srai rd rs1 shamt => encodeR 0b0100000#7 shamt rs1 0b101#3 rd 0b0010011#7
  | .add rd rs1 rs2 => encodeR 0b0000000#7 rs2 rs1 0b000#3 rd 0b0110011#7
  | .sub rd rs1 rs2 => encodeR 0b0100000#7 rs2 rs1 0b000#3 rd 0b0110011#7
  | .sll rd rs1 rs2 => encodeR 0b0000000#7 rs2 rs1 0b001#3 rd 0b0110011#7
  | .slt rd rs1 rs2 => encodeR 0b0000000#7 rs2 rs1 0b010#3 rd 0b0110011#7
  | .sltu rd rs1 rs2 => encodeR 0b0000000#7 rs2 rs1 0b011#3 rd 0b0110011#7
  | .xor rd rs1 rs2 => encodeR 0b0000000#7 rs2 rs1 0b100#3 rd 0b0110011#7
  | .srl rd rs1 rs2 => encodeR 0b0000000#7 rs2 rs1 0b101#3 rd 0b0110011#7
  | .sra rd rs1 rs2 => encodeR 0b0100000#7 rs2 rs1 0b101#3 rd 0b0110011#7
  | .or rd rs1 rs2 => encodeR 0b0000000#7 rs2 rs1 0b110#3 rd 0b0110011#7
  | .and rd rs1 rs2 => encodeR 0b0000000#7 rs2 rs1 0b111#3 rd 0b0110011#7
  | .fence fm pred succ rd rs1 => fm ++ pred ++ succ ++ regBits rs1 ++ 0b000#3 ++ regBits rd ++ 0b0001111#7
  | .mul rd rs1 rs2 => encodeR 0b0000001#7 rs2 rs1 0b000#3 rd 0b0110011#7
  | .mulh rd rs1 rs2 => encodeR 0b0000001#7 rs2 rs1 0b001#3 rd 0b0110011#7
  | .mulhsu rd rs1 rs2 => encodeR 0b0000001#7 rs2 rs1 0b010#3 rd 0b0110011#7
  | .mulhu rd rs1 rs2 => encodeR 0b0000001#7 rs2 rs1 0b011#3 rd 0b0110011#7
  | .div rd rs1 rs2 => encodeR 0b0000001#7 rs2 rs1 0b100#3 rd 0b0110011#7
  | .divu rd rs1 rs2 => encodeR 0b0000001#7 rs2 rs1 0b101#3 rd 0b0110011#7
  | .rem rd rs1 rs2 => encodeR 0b0000001#7 rs2 rs1 0b110#3 rd 0b0110011#7
  | .remu rd rs1 rs2 => encodeR 0b0000001#7 rs2 rs1 0b111#3 rd 0b0110011#7

/-! ## The decoded record (10_state.md R24) -/

/-- The format tag of an instruction (R68; FENCE is I, 92 D24). -/
def Instr.iType : Instr → IType
  | .lui _ _ | .auipc _ _ => .U
  | .jal _ _ => .J
  | .beq _ _ _ | .bne _ _ _ | .blt _ _ _ | .bge _ _ _ | .bltu _ _ _ | .bgeu _ _ _ => .B
  | .sb _ _ _ | .sh _ _ _ | .sw _ _ _ => .S
  | .jalr _ _ _ | .lb _ _ _ | .lh _ _ _ | .lw _ _ _ | .lbu _ _ _ | .lhu _ _ _
  | .addi _ _ _ | .slti _ _ _ | .sltiu _ _ _ | .xori _ _ _ | .ori _ _ _ | .andi _ _ _
  | .slli _ _ _ | .srli _ _ _ | .srai _ _ _ | .fence _ _ _ _ _ => .I
  | .add _ _ _ | .sub _ _ _ | .sll _ _ _ | .slt _ _ _ | .sltu _ _ _ | .xor _ _ _ | .srl _ _ _ | .sra _ _ _
  | .or _ _ _ | .and _ _ _ | .mul _ _ _ | .mulh _ _ _ | .mulhsu _ _ _ | .mulhu _ _ _
  | .div _ _ _ | .divu _ _ _ | .rem _ _ _ | .remu _ _ _ => .R

/-- `params` (R24): a field not listed for the type is absent. -/
structure Params where
  rd : Option Reg
  rs1 : Option Reg
  rs2 : Option Reg
  imm : Option Word
deriving DecidableEq, Repr

/-- The decoded record (R24). -/
structure Record where
  iType : IType
  opcode : BitVec 7
  funct3 : BitVec 3
  funct7 : BitVec 7
  params : Params
deriving DecidableEq, Repr

/-- The params of a word read in the given format (R24, R55 to R65). -/
def paramsOf (ty : IType) (w : Word) : Params :=
  match ty with
  | .R => { rd := some (rdOf w), rs1 := some (rs1Of w), rs2 := some (rs2Of w), imm := none }
  | .I => { rd := some (rdOf w), rs1 := some (rs1Of w), rs2 := none, imm := some (immI w) }
  | .S => { rd := none, rs1 := some (rs1Of w), rs2 := some (rs2Of w), imm := some (immS w) }
  | .B => { rd := none, rs1 := some (rs1Of w), rs2 := some (rs2Of w), imm := some (immB w) }
  | .U => { rd := some (rdOf w), rs1 := none, rs2 := none, imm := some (immU w) }
  | .J => { rd := some (rdOf w), rs1 := none, rs2 := none, imm := some (immJ w) }

/-- The record of a word read in the given format: the raw fields for every type (R24, 95 W8). -/
def recordOf (ty : IType) (w : Word) : Record :=
  { iType := ty, opcode := opcodeOf w, funct3 := funct3Of w, funct7 := funct7Of w, params := paramsOf ty w }

/-- The record of a decoded instruction: its word's fields (R24). DEDUCED, safe (assumption log 4): the record is computed from
the instruction's own word, which the decoder and encoder agree on. -/
def Instr.record (i : Instr) : Record := recordOf i.iType (encode i)

/-- The register an instruction names as its destination and writes: the `rd` of every rule that has `x[rd] <- v`
(R88 to R137). FENCE has the field and writes no register (R138). -/
def Instr.dest : Instr → Option Reg
  | .lui rd _ | .auipc rd _ | .jal rd _ | .jalr rd _ _ => some rd
  | .beq _ _ _ | .bne _ _ _ | .blt _ _ _ | .bge _ _ _ | .bltu _ _ _ | .bgeu _ _ _ => none
  | .lb rd _ _ | .lh rd _ _ | .lw rd _ _ | .lbu rd _ _ | .lhu rd _ _ => some rd
  | .sb _ _ _ | .sh _ _ _ | .sw _ _ _ => none
  | .addi rd _ _ | .slti rd _ _ | .sltiu rd _ _ | .xori rd _ _ | .ori rd _ _ | .andi rd _ _
  | .slli rd _ _ | .srli rd _ _ | .srai rd _ _ => some rd
  | .add rd _ _ | .sub rd _ _ | .sll rd _ _ | .slt rd _ _ | .sltu rd _ _ | .xor rd _ _ | .srl rd _ _ | .sra rd _ _
  | .or rd _ _ | .and rd _ _ => some rd
  | .fence _ _ _ _ _ => none
  | .mul rd _ _ | .mulh rd _ _ | .mulhsu rd _ _ | .mulhu rd _ _
  | .div rd _ _ | .divu rd _ _ | .rem rd _ _ | .remu rd _ _ => some rd

/-! ## The opcode table as data (R69, spec/opcode_table.json) -/

/-- The instruction's name in the table (R79: the decoded record carries the instruction's name). -/
def Instr.mnemonic : Instr → String
  | .lui _ _ => "LUI" | .auipc _ _ => "AUIPC" | .jal _ _ => "JAL" | .jalr _ _ _ => "JALR"
  | .beq _ _ _ => "BEQ" | .bne _ _ _ => "BNE" | .blt _ _ _ => "BLT" | .bge _ _ _ => "BGE"
  | .bltu _ _ _ => "BLTU" | .bgeu _ _ _ => "BGEU"
  | .lb _ _ _ => "LB" | .lh _ _ _ => "LH" | .lw _ _ _ => "LW" | .lbu _ _ _ => "LBU" | .lhu _ _ _ => "LHU"
  | .sb _ _ _ => "SB" | .sh _ _ _ => "SH" | .sw _ _ _ => "SW"
  | .addi _ _ _ => "ADDI" | .slti _ _ _ => "SLTI" | .sltiu _ _ _ => "SLTIU"
  | .xori _ _ _ => "XORI" | .ori _ _ _ => "ORI" | .andi _ _ _ => "ANDI"
  | .slli _ _ _ => "SLLI" | .srli _ _ _ => "SRLI" | .srai _ _ _ => "SRAI"
  | .add _ _ _ => "ADD" | .sub _ _ _ => "SUB" | .sll _ _ _ => "SLL" | .slt _ _ _ => "SLT"
  | .sltu _ _ _ => "SLTU" | .xor _ _ _ => "XOR" | .srl _ _ _ => "SRL" | .sra _ _ _ => "SRA"
  | .or _ _ _ => "OR" | .and _ _ _ => "AND" | .fence _ _ _ _ _ => "FENCE"
  | .mul _ _ _ => "MUL" | .mulh _ _ _ => "MULH" | .mulhsu _ _ _ => "MULHSU" | .mulhu _ _ _ => "MULHU"
  | .div _ _ _ => "DIV" | .divu _ _ _ => "DIVU" | .rem _ _ _ => "REM" | .remu _ _ _ => "REMU"

/-- One row of the opcode table: a word `w` matches it when `w &&& mask = bits`. -/
structure OpcodeRow where
  mnemonic : String
  format : IType
  bits : Word
  mask : Word
  needsM : Bool
deriving DecidableEq, Repr

/-- The word matches the row's fixed fields (R69). -/
def OpcodeRow.hits (r : OpcodeRow) (w : Word) : Bool := w &&& r.mask == r.bits

/-- The rows whose fixed field is the opcode alone. -/
def tableU : List OpcodeRow :=
  [⟨"LUI", .U, 0x00000037, 0x0000007F, false⟩, ⟨"AUIPC", .U, 0x00000017, 0x0000007F, false⟩,
   ⟨"JAL", .J, 0x0000006F, 0x0000007F, false⟩]

/-- JALR and the branches. -/
def tableControl : List OpcodeRow :=
  [⟨"JALR", .I, 0x00000067, 0x0000707F, false⟩, ⟨"BEQ", .B, 0x00000063, 0x0000707F, false⟩,
   ⟨"BNE", .B, 0x00001063, 0x0000707F, false⟩, ⟨"BLT", .B, 0x00004063, 0x0000707F, false⟩,
   ⟨"BGE", .B, 0x00005063, 0x0000707F, false⟩, ⟨"BLTU", .B, 0x00006063, 0x0000707F, false⟩,
   ⟨"BGEU", .B, 0x00007063, 0x0000707F, false⟩]

/-- The loads, the stores and FENCE. -/
def tableMemory : List OpcodeRow :=
  [⟨"LB", .I, 0x00000003, 0x0000707F, false⟩, ⟨"LH", .I, 0x00001003, 0x0000707F, false⟩,
   ⟨"LW", .I, 0x00002003, 0x0000707F, false⟩, ⟨"LBU", .I, 0x00004003, 0x0000707F, false⟩,
   ⟨"LHU", .I, 0x00005003, 0x0000707F, false⟩, ⟨"SB", .S, 0x00000023, 0x0000707F, false⟩,
   ⟨"SH", .S, 0x00001023, 0x0000707F, false⟩, ⟨"SW", .S, 0x00002023, 0x0000707F, false⟩,
   ⟨"FENCE", .I, 0x0000000F, 0x0000707F, false⟩]

/-- OP-IMM. -/
def tableOpImm : List OpcodeRow :=
  [⟨"ADDI", .I, 0x00000013, 0x0000707F, false⟩, ⟨"SLTI", .I, 0x00002013, 0x0000707F, false⟩,
   ⟨"SLTIU", .I, 0x00003013, 0x0000707F, false⟩, ⟨"XORI", .I, 0x00004013, 0x0000707F, false⟩,
   ⟨"ORI", .I, 0x00006013, 0x0000707F, false⟩, ⟨"ANDI", .I, 0x00007013, 0x0000707F, false⟩,
   ⟨"SLLI", .I, 0x00001013, 0xFE00707F, false⟩, ⟨"SRLI", .I, 0x00005013, 0xFE00707F, false⟩,
   ⟨"SRAI", .I, 0x40005013, 0xFE00707F, false⟩]

/-- OP. -/
def tableOp : List OpcodeRow :=
  [⟨"ADD", .R, 0x00000033, 0xFE00707F, false⟩, ⟨"SUB", .R, 0x40000033, 0xFE00707F, false⟩,
   ⟨"SLL", .R, 0x00001033, 0xFE00707F, false⟩, ⟨"SLT", .R, 0x00002033, 0xFE00707F, false⟩,
   ⟨"SLTU", .R, 0x00003033, 0xFE00707F, false⟩, ⟨"XOR", .R, 0x00004033, 0xFE00707F, false⟩,
   ⟨"SRL", .R, 0x00005033, 0xFE00707F, false⟩, ⟨"SRA", .R, 0x40005033, 0xFE00707F, false⟩,
   ⟨"OR", .R, 0x00006033, 0xFE00707F, false⟩, ⟨"AND", .R, 0x00007033, 0xFE00707F, false⟩]

/-- OP with funct7 0000001, present when `EXT_M = true`. -/
def tableMulDiv : List OpcodeRow :=
  [⟨"MUL", .R, 0x02000033, 0xFE00707F, true⟩, ⟨"MULH", .R, 0x02001033, 0xFE00707F, true⟩,
   ⟨"MULHSU", .R, 0x02002033, 0xFE00707F, true⟩, ⟨"MULHU", .R, 0x02003033, 0xFE00707F, true⟩,
   ⟨"DIV", .R, 0x02004033, 0xFE00707F, true⟩, ⟨"DIVU", .R, 0x02005033, 0xFE00707F, true⟩,
   ⟨"REM", .R, 0x02006033, 0xFE00707F, true⟩, ⟨"REMU", .R, 0x02007033, 0xFE00707F, true⟩]

/-- The decode map of R69, from spec/opcode_table.json's `match` and `mask`. The decoder above does not use it: a statement says
that the two agree. -/
def opcodeTable : List OpcodeRow := tableU ++ tableControl ++ tableMemory ++ tableOpImm ++ tableOp ++ tableMulDiv

/-! ## The host's entry to the decoder -/

/-- The instruction this decoder reads from a table word, with the parameters of `State.reset` (assumption log 7). An
instruction is one little-endian 32-bit word (R53), so the word's bits are the table's bits. -/
def decodeTableWord (nbits w : Nat) : Option Instr :=
  match decode Config.standard.extM (BitVec.ofNat 32 (w % 2 ^ nbits)) with
  | .ok i => some i
  | .error _ => none

end Sys2Proof
end

