-- ==== Sys2Proof/Machine/State.lean ====
section
/-! DEFINITION. The state tuple of 10_state.md R14 as plain data, the errors of 60_exceptions.md R141, and the state after
reset (R34, R157). -/

namespace Sys2Proof.Machine

/-- The stored registers `x[1]` .. `x[31]`, entry `k` holding `x[k + 1]`; `x[0]` is hard-wired and has no storage (R14, R16). -/
abbrev RegFile := Vector Word 31

/-- Memory contents as (address, byte) pairs, addresses rising, no entry equal to what an unlisted address reads as. -/
abbrev Memory := List Host.Cell

/-- The access widths (20_memory.md R43). -/
inductive Width where
  | byte | half | word
deriving DecidableEq, Repr

/-- The complete state between two steps (R14), with the construction parameters beside it (assumption log 1). -/
structure State where
  /-- `MEM_SIZE` and `EXT_M` (R7): configuration, written by no operation. -/
  cfg : Config
  /-- `x[1]` .. `x[31]` (R14, R15). -/
  regs : RegFile
  /-- The address of the next instruction to fetch (R21). -/
  pc : Word
  /-- The `pc` of the instruction that retired last (R23). -/
  pcLast : Word
  /-- The instruction that retired last, or NONE (R24); its record is the view `Instr.record`. -/
  instr : Option Instr
  /-- The byte array (R28). -/
  mem : Memory
deriving DecidableEq, Repr

/-- The outcomes of a step other than `Ok`: exactly these three (R141). Each leaves the state as it was before the step (R144);
safe, since the spec's step ends the same way. -/
inductive Fault where
  /-- Raised by the decode of a fetched word that matches no row of the decode map (R70, R79). Safe: the spec's own error. -/
  | decodeError (pc word : Word)
  /-- Raised by a fetch, a load or a store out of bounds (R37, R78, R109 to R116). Safe: the spec's own error. -/
  | outOfBounds (address : Word) (byteCount : Nat)
  /-- Raised by a fetch at, or a taken transfer to, an address that is no multiple of 4 (R78, R117). Safe: the spec's own
  error. -/
  | misalignedPC (target : Word)
deriving DecidableEq, Repr

/-- Reasons an instruction has no meaning here. -/
inductive Refusal where
  /-- Raised by an arm of `exec` whose instruction has no meaning yet; no arm does, so no step is refused. Safe. -/
  | notModelled (mnemonic : String)
deriving DecidableEq, Repr

/-- What `exec` and `step` answer. -/
abbrev Result := Host.Outcome State Fault Refusal

/-- `x[1]` .. `x[31]` after `reset()`: all zero but `x[2]`, which is `MEM_SIZE` (R34, R157). -/
def regsAtReset (memSize : Nat) : RegFile := (Vector.replicate 31 (0 : Word)).set 1 (BitVec.ofNat 32 memSize)

/-- The state after construction with these parameters and this `INIT_MEM` and a `reset()` (R34, R156, R157, R160). -/
def State.launch (cfg : Config) (initMem : Memory) : State :=
  { cfg := cfg, regs := regsAtReset cfg.memSize, pc := resetPc, pcLast := resetPc, instr := none, mem := initMem }

/-- The machine right after reset: `State.launch` with the parameters of `Config.standard` and memory with nothing listed.
DESIGN CHOICE, unsafe (assumption logs 2 and 3): the spec leaves the parameters and `INIT_MEM` open. -/
def State.reset : State := State.launch Config.standard []

end Sys2Proof.Machine
end

