-- ==== Sys2Proof/Machine/Ops.lean ====
section
/-! DEFINITION. The named operations every meaning is written over: registers (10_state.md R16, R17), memory (20_memory.md R35 to
R41), fetch and decode (40_execution_cycle.md R78, R79), the error outcome (60_exceptions.md R144, R146) and retirement (R83). -/

namespace Sys2Proof.Machine

/-! ## Registers -/

/-- `x[i]`: index 0 reads zero (R16). -/
def RegFile.read (f : RegFile) (i : Reg) : Word :=
  if h : i = 0 then 0 else f[i.val - 1]'(by have := i.isLt; omega)

/-- `x[i] <- v`: a write to index 0 is discarded (R17). -/
def RegFile.write (f : RegFile) (i : Reg) (v : Word) : RegFile :=
  if h : i = 0 then f else f.set (i.val - 1) v (by have := i.isLt; omega)

/-- The register operand `x[i]` of the state (R11, R81). -/
def State.x (s : State) (i : Reg) : Word := RegFile.read s.regs i

/-- The state with register `i` written. -/
def State.setX (s : State) (i : Reg) (v : Word) : State := { s with regs := RegFile.write s.regs i v }

/-- The state with another memory. -/
def State.setMem (s : State) (m : Memory) : State := { s with mem := m }

/-- The state with another `pc`. -/
def State.setPc (s : State) (a : Word) : State := { s with pc := a }

/-- The state with `pcLast` and `instr` written, as a retiring instruction writes them (R23, R24, R83). -/
def State.setLast (s : State) (a : Word) (i : Instr) : State := { s with pcLast := a, instr := some i }

/-! ## Memory -/

/-- What an address that memory does not list reads as.
DESIGN CHOICE, unsafe (assumption log 3): the spec leaves `INIT_MEM` open and suggests all zero bytes (92 D4). -/
def unlistedByte : Byte := 0x00

/-- The byte at an address (R28). -/
def Memory.get : Memory → Nat → Byte
  | [], _ => unlistedByte
  | (k, v) :: m, a => if a = k then v else Memory.get m a

/-- List `b` at address `a`, keeping the addresses rising. -/
def Memory.insert : Memory → Nat → Byte → Memory
  | [], a, b => [(a, b)]
  | (k, v) :: m, a, b =>
    if a < k then (a, b) :: (k, v) :: m else if a = k then (a, b) :: m else (k, v) :: Memory.insert m a b

/-- Write one byte; writing what an unlisted address reads as removes the entry. -/
def Memory.set (m : Memory) (a : Nat) (b : Byte) : Memory :=
  if b = unlistedByte then m.filter (fun c => c.1 != a) else Memory.insert m a b

/-- The canonical form: addresses strictly rising, no entry equal to what an unlisted address reads as. -/
abbrev Memory.wf (m : Memory) : Prop :=
  m.Pairwise (fun c d => c.1 < d.1) ∧ ∀ c ∈ m, c.2 ≠ unlistedByte

/-- Only addresses of the byte array are listed (R28, R29). -/
abbrev Memory.within (size : Nat) (m : Memory) : Prop := ∀ c ∈ m, c.1 < size

/-- Write bytes at rising addresses (R36, R158). -/
def Memory.writeBytes (m : Memory) (a : Nat) : List Byte → Memory
  | [] => m
  | b :: bs => Memory.writeBytes (Memory.set m a b) (a + 1) bs

/-- The number of bytes of an access (R43). -/
def Width.bytes : Width → Nat
  | .byte => 1
  | .half => 2
  | .word => 4

/-- The bytes at `a`, assembled little-endian, the bits above the width zero (R38, R40). -/
def Memory.readLE (m : Memory) (a : Nat) : Width → Word
  | .byte => (Memory.get m a).setWidth 32
  | .half => (Memory.get m (a + 1) ++ Memory.get m a).setWidth 32
  | .word => Memory.get m (a + 3) ++ Memory.get m (a + 2) ++ Memory.get m (a + 1) ++ Memory.get m a

/-- The low bytes of a value, least significant first (R39, R40). -/
def bytesLE (v : Word) : Width → List Byte
  | .byte => [v.extractLsb' 0 8]
  | .half => [v.extractLsb' 0 8, v.extractLsb' 8 8]
  | .word => [v.extractLsb' 0 8, v.extractLsb' 8 8, v.extractLsb' 16 8, v.extractLsb' 24 8]

/-- Write the low bytes of a value at an address, the bounds already checked (R39, R83). -/
def Memory.writeLE (m : Memory) (a : Word) (w : Width) (v : Word) : Memory := Memory.writeBytes m a.toNat (bytesLE v w)

/-- R37: an access of `n` bytes at `a` is in bounds exactly when `unsigned(a) + n <= MEM_SIZE`, without wrap-around. -/
def inBounds (c : Config) (a : Word) (n : Nat) : Bool := decide (a.toNat + n ≤ c.memSize)

/-- `MemRead(a, n)` (R38). -/
def memRead (s : State) (a : Word) (w : Width) : Except Fault Word :=
  if inBounds s.cfg a w.bytes then .ok (Memory.readLE s.mem a.toNat w) else .error (.outOfBounds a w.bytes)

/-- `MemWrite(a, n, v)` (R39): the bounds check precedes every byte write. -/
def memWrite (s : State) (a : Word) (w : Width) (v : Word) : Except Fault Memory :=
  if inBounds s.cfg a w.bytes then .ok (Memory.writeLE s.mem a w v) else .error (.outOfBounds a w.bytes)

/-! ## Fetch and decode -/

/-- `a[1:0] = 0b00` (R42, R78, R117). -/
def isAligned (a : Word) : Bool := a.extractLsb' 0 2 == 0#2

/-- Fetch (R78): alignment first, then bounds (R145). -/
def fetch (s : State) : Except Fault Word :=
  if isAligned s.pc then memRead s s.pc .word else .error (.misalignedPC s.pc)

/-- Decode of a fetched word (R79): a word that matches no row is `DecodeError(pc, w)`. -/
def decodeAt (s : State) (w : Word) : Except Fault Instr :=
  match decode s.cfg.extM w with
  | .ok i => .ok i
  | .error _ => .error (.decodeError s.pc w)

/-- Fetch, then decode: the first error found is the step's (R145). -/
def fetchDecode (s : State) : Except Fault Instr :=
  match fetch s with
  | .ok w => decodeAt s w
  | .error f => .error f

/-! ## Execute and retire -/

/-- A store that an instruction makes when it retires. -/
structure Store where
  addr : Word
  width : Width
  value : Word
deriving DecidableEq, Repr

/-- The effect of an instruction (R77): what execute computes and retire applies. -/
structure Effect where
  reg : Option (Reg × Word) := none
  store : Option Store := none
  npc : Word
deriving DecidableEq, Repr

/-- Retire (R83): every effect at once; `pcLast` gets the address of the instruction and `instr` the instruction. -/
def retire (i : Instr) (e : Effect) (s : State) : State :=
  let s1 := match e.reg with
    | some (r, v) => s.setX r v
    | none => s
  let s2 := match e.store with
    | some st => s1.setMem (Memory.writeLE s1.mem st.addr st.width st.value)
    | none => s1
  (s2.setPc e.npc).setLast s.pc i

/-- `raise E`, the one way an exception is taken: the step ends with the error and no state changes; nothing is saved and control
goes to no handler, so there is no return from it (R144, R146, R147; assumption log 5). -/
def raise (f : Fault) : Result := .fault f

/-- Execute then retire (R77): an effect retires, an error ends the step. -/
def finish (i : Instr) (e : Except Fault Effect) (s : State) : Result :=
  match e with
  | .ok e => .next (retire i e s)
  | .error f => raise f

/-- The effect of an instruction that writes one register and goes on (R82). -/
def regEffect (s : State) (rd : Reg) (v : Word) : Except Fault Effect :=
  .ok { reg := some (rd, v), npc := s.pc + 4 }

/-- The effect of a load: read, extend, write `rd` (R107 to R113). The read and its check happen for `rd = x0` too (R108). -/
def loadEffect (s : State) (a : Word) (w : Width) (ext : Word → Word) (rd : Reg) : Except Fault Effect :=
  match memRead s a w with
  | .ok v => .ok { reg := some (rd, ext v), npc := s.pc + 4 }
  | .error f => .error f

/-- The effect of a store: the bounds are checked in execute, the bytes are written at retirement (R83, R114 to R116). -/
def storeEffect (s : State) (a : Word) (w : Width) (v : Word) : Except Fault Effect :=
  if inBounds s.cfg a w.bytes then .ok { store := some ⟨a, w, v⟩, npc := s.pc + 4 } else .error (.outOfBounds a w.bytes)

/-- `checkTarget(t)` (R117): the target of a taken transfer, or `MisalignedPC(t)`. -/
def checkTarget (t : Word) : Except Fault Word :=
  if isAligned t then .ok t else .error (.misalignedPC t)

/-- The effect of a conditional branch: only a taken branch checks its target (R117 to R123). -/
def branchEffect (s : State) (taken : Bool) (target : Word) : Except Fault Effect :=
  if taken then
    match checkTarget target with
    | .ok t => .ok { npc := t }
    | .error f => .error f
  else .ok { npc := s.pc + 4 }

/-- The effect of a jump: the link register gets `pc + 4`, unless the target is misaligned (R124, R125). -/
def jumpEffect (s : State) (rd : Reg) (target : Word) : Except Fault Effect :=
  match checkTarget target with
  | .ok t => .ok { reg := some (rd, s.pc + 4), npc := t }
  | .error f => .error f

/-- `rdWritten` of an effect (R77): the index written, NONE for `x0`. -/
def Effect.rdWritten (e : Effect) : Option Reg :=
  match e.reg with
  | some (r, _) => if r = 0 then none else some r
  | none => none

end Sys2Proof.Machine
end

