-- ==== Sys2Proof/Machine/Flags.lean ====
section
/-! DEFINITION. The engine has no status flags and no condition codes (10_state.md R25): no instruction writes one. What stands in
their place are the comparisons, whose outcome goes to a register as `bool(c)` or decides a branch (R10). -/

namespace Sys2Proof.Machine

/-- `bool(c)` (R10). -/
def boolWord (c : Bool) : Word := if c then 0x00000001 else 0x00000000

/-- `a <s b` (R10): `signed(a) < signed(b)`. -/
def ltSigned (a b : Word) : Bool := decide (a.toInt < b.toInt)

/-- `a <u b` (R10): `unsigned(a) < unsigned(b)`. -/
def ltUnsigned (a b : Word) : Bool := decide (a.toNat < b.toNat)

end Sys2Proof.Machine
end

