-- ==== Sys2Proof/Machine/Operands.lean ====
section
/-! DEFINITION. The operand forms: base plus displacement (42_load_store.md R107), pc-relative and register-relative targets
(43_control_transfer.md R118 to R125), register shift amounts (41_integer_alu.md R87). A register operand is `State.x`; an
immediate operand is the instruction's own 32-bit value (R61 to R65). -/

namespace Sys2Proof.Machine

/-- `EA = x[rs1] + imm`, modulo 2^32 (R107). -/
def effectiveAddress (s : State) (rs1 : Reg) (imm : Word) : Word := s.x rs1 + imm

/-- `pc + imm`, modulo 2^32: the target of a branch and of JAL (R22, R118 to R124). -/
def pcTarget (s : State) (imm : Word) : Word := s.pc + imm

/-- `(x[rs1] + imm) & 0xFFFFFFFE`: the target of JALR, from the register's old value (R125). -/
def jalrTarget (s : State) (rs1 : Reg) (imm : Word) : Word := (s.x rs1 + imm) &&& 0xFFFFFFFE#32

/-- `x[rs2][4:0]`: a register shift amount, masked to 5 bits (R87). -/
def shiftAmount (v : Word) : Nat := (v.extractLsb' 0 5).toNat

end Sys2Proof.Machine
end

