-- ==== Sys2Proof/Machine/Alu.lean ====
section
/-! DEFINITION. The integer computational instructions of 41_integer_alu.md: OP-IMM (R88 to R96) and OP (R97 to R106). -/

namespace Sys2Proof.Machine

/-! ## Register-immediate -/

/-- R88: `x[rd] <- x[rs1] + imm`. -/
def execAddi (rd rs1 : Reg) (imm : Word) (s : State) : Result :=
  finish (.addi rd rs1 imm) (regEffect s rd (s.x rs1 + imm)) s

/-- R89: `x[rd] <- bool(x[rs1] <s imm)`. -/
def execSlti (rd rs1 : Reg) (imm : Word) (s : State) : Result :=
  finish (.slti rd rs1 imm) (regEffect s rd (boolWord (ltSigned (s.x rs1) imm))) s

/-- R90: `x[rd] <- bool(x[rs1] <u imm)`, `imm` sign-extended first. -/
def execSltiu (rd rs1 : Reg) (imm : Word) (s : State) : Result :=
  finish (.sltiu rd rs1 imm) (regEffect s rd (boolWord (ltUnsigned (s.x rs1) imm))) s

/-- R91: `x[rd] <- x[rs1] ^ imm`. -/
def execXori (rd rs1 : Reg) (imm : Word) (s : State) : Result :=
  finish (.xori rd rs1 imm) (regEffect s rd (s.x rs1 ^^^ imm)) s

/-- R92: `x[rd] <- x[rs1] | imm`. -/
def execOri (rd rs1 : Reg) (imm : Word) (s : State) : Result :=
  finish (.ori rd rs1 imm) (regEffect s rd (s.x rs1 ||| imm)) s

/-- R93: `x[rd] <- x[rs1] & imm`. -/
def execAndi (rd rs1 : Reg) (imm : Word) (s : State) : Result :=
  finish (.andi rd rs1 imm) (regEffect s rd (s.x rs1 &&& imm)) s

/-- R94: `x[rd] <- x[rs1] << shamt`. -/
def execSlli (rd rs1 : Reg) (shamt : Shamt) (s : State) : Result :=
  finish (.slli rd rs1 shamt) (regEffect s rd (s.x rs1 <<< shamt.val)) s

/-- R95: `x[rd] <- x[rs1] >>u shamt`. -/
def execSrli (rd rs1 : Reg) (shamt : Shamt) (s : State) : Result :=
  finish (.srli rd rs1 shamt) (regEffect s rd (s.x rs1 >>> shamt.val)) s

/-- R96: `x[rd] <- x[rs1] >>s shamt`. -/
def execSrai (rd rs1 : Reg) (shamt : Shamt) (s : State) : Result :=
  finish (.srai rd rs1 shamt) (regEffect s rd ((s.x rs1).sshiftRight shamt.val)) s

/-! ## Register-register -/

/-- R97: `x[rd] <- x[rs1] + x[rs2]`. -/
def execAdd (rd rs1 rs2 : Reg) (s : State) : Result :=
  finish (.add rd rs1 rs2) (regEffect s rd (s.x rs1 + s.x rs2)) s

/-- R98: `x[rd] <- x[rs1] - x[rs2]`. -/
def execSub (rd rs1 rs2 : Reg) (s : State) : Result :=
  finish (.sub rd rs1 rs2) (regEffect s rd (s.x rs1 - s.x rs2)) s

/-- R99: `x[rd] <- x[rs1] << x[rs2][4:0]`. -/
def execSll (rd rs1 rs2 : Reg) (s : State) : Result :=
  finish (.sll rd rs1 rs2) (regEffect s rd (s.x rs1 <<< shiftAmount (s.x rs2))) s

/-- R100: `x[rd] <- bool(x[rs1] <s x[rs2])`. -/
def execSlt (rd rs1 rs2 : Reg) (s : State) : Result :=
  finish (.slt rd rs1 rs2) (regEffect s rd (boolWord (ltSigned (s.x rs1) (s.x rs2)))) s

/-- R101: `x[rd] <- bool(x[rs1] <u x[rs2])`. -/
def execSltu (rd rs1 rs2 : Reg) (s : State) : Result :=
  finish (.sltu rd rs1 rs2) (regEffect s rd (boolWord (ltUnsigned (s.x rs1) (s.x rs2)))) s

/-- R102: `x[rd] <- x[rs1] ^ x[rs2]`. -/
def execXor (rd rs1 rs2 : Reg) (s : State) : Result :=
  finish (.xor rd rs1 rs2) (regEffect s rd (s.x rs1 ^^^ s.x rs2)) s

/-- R103: `x[rd] <- x[rs1] >>u x[rs2][4:0]`. -/
def execSrl (rd rs1 rs2 : Reg) (s : State) : Result :=
  finish (.srl rd rs1 rs2) (regEffect s rd (s.x rs1 >>> shiftAmount (s.x rs2))) s

/-- R104: `x[rd] <- x[rs1] >>s x[rs2][4:0]`. -/
def execSra (rd rs1 rs2 : Reg) (s : State) : Result :=
  finish (.sra rd rs1 rs2) (regEffect s rd ((s.x rs1).sshiftRight (shiftAmount (s.x rs2)))) s

/-- R105: `x[rd] <- x[rs1] | x[rs2]`. -/
def execOr (rd rs1 rs2 : Reg) (s : State) : Result :=
  finish (.or rd rs1 rs2) (regEffect s rd (s.x rs1 ||| s.x rs2)) s

/-- R106: `x[rd] <- x[rs1] & x[rs2]`. -/
def execAnd (rd rs1 rs2 : Reg) (s : State) : Result :=
  finish (.and rd rs1 rs2) (regEffect s rd (s.x rs1 &&& s.x rs2)) s

end Sys2Proof.Machine
end

