-- ==== Sys2Proof/Machine/Control.lean ====
section
/-! DEFINITION. The control transfers of 43_control_transfer.md (R117 to R125). There are no delay slots. -/

namespace Sys2Proof.Machine

/-- R118: taken when `x[rs1] = x[rs2]`. -/
def execBeq (rs1 rs2 : Reg) (imm : Word) (s : State) : Result :=
  finish (.beq rs1 rs2 imm) (branchEffect s (s.x rs1 == s.x rs2) (pcTarget s imm)) s

/-- R119: taken when `x[rs1] != x[rs2]`. -/
def execBne (rs1 rs2 : Reg) (imm : Word) (s : State) : Result :=
  finish (.bne rs1 rs2 imm) (branchEffect s (s.x rs1 != s.x rs2) (pcTarget s imm)) s

/-- R120: taken when `x[rs1] <s x[rs2]`. -/
def execBlt (rs1 rs2 : Reg) (imm : Word) (s : State) : Result :=
  finish (.blt rs1 rs2 imm) (branchEffect s (ltSigned (s.x rs1) (s.x rs2)) (pcTarget s imm)) s

/-- R121: taken when not `x[rs1] <s x[rs2]`. -/
def execBge (rs1 rs2 : Reg) (imm : Word) (s : State) : Result :=
  finish (.bge rs1 rs2 imm) (branchEffect s (!ltSigned (s.x rs1) (s.x rs2)) (pcTarget s imm)) s

/-- R122: taken when `x[rs1] <u x[rs2]`. -/
def execBltu (rs1 rs2 : Reg) (imm : Word) (s : State) : Result :=
  finish (.bltu rs1 rs2 imm) (branchEffect s (ltUnsigned (s.x rs1) (s.x rs2)) (pcTarget s imm)) s

/-- R123: taken when not `x[rs1] <u x[rs2]`. -/
def execBgeu (rs1 rs2 : Reg) (imm : Word) (s : State) : Result :=
  finish (.bgeu rs1 rs2 imm) (branchEffect s (!ltUnsigned (s.x rs1) (s.x rs2)) (pcTarget s imm)) s

/-- R124: to `pc + imm`, `x[rd] <- pc + 4`. -/
def execJal (rd : Reg) (imm : Word) (s : State) : Result :=
  finish (.jal rd imm) (jumpEffect s rd (pcTarget s imm)) s

/-- R125: to `(x[rs1] + imm) & 0xFFFFFFFE`, `x[rd] <- pc + 4`. -/
def execJalr (rd rs1 : Reg) (imm : Word) (s : State) : Result :=
  finish (.jalr rd rs1 imm) (jumpEffect s rd (jalrTarget s rs1 imm)) s

end Sys2Proof.Machine
end

