-- ==== Sys2Proof/Machine/Fence.lean ====
section
/-! DEFINITION. FENCE (46_fence_system.md R138): an exact no-op on this engine, whatever its fields. The rest of MISC-MEM and all of
SYSTEM raise `DecodeError` in the decoder (R139, R140). -/

namespace Sys2Proof.Machine

/-- R138: no register and no memory access; `pc <- pc + 4`. The fields are ignored. -/
def execFence (fm pred succ : BitVec 4) (rd rs1 : Reg) (s : State) : Result :=
  finish (.fence fm pred succ rd rs1) (.ok { npc := s.pc + 4 }) s

end Sys2Proof.Machine
end

