-- ==== Sys2Proof/Machine/LoadStore.lean ====
section
/-! DEFINITION. The loads and stores of 42_load_store.md (R107 to R116). -/

namespace Sys2Proof.Machine

/-- R109: `x[rd] <- sext_8(MemRead(EA, 1))`. -/
def execLb (rd rs1 : Reg) (imm : Word) (s : State) : Result :=
  finish (.lb rd rs1 imm) (loadEffect s (effectiveAddress s rs1 imm) .byte (sext 8) rd) s

/-- R110: `x[rd] <- sext_16(MemRead(EA, 2))`. -/
def execLh (rd rs1 : Reg) (imm : Word) (s : State) : Result :=
  finish (.lh rd rs1 imm) (loadEffect s (effectiveAddress s rs1 imm) .half (sext 16) rd) s

/-- R111: `x[rd] <- MemRead(EA, 4)`. -/
def execLw (rd rs1 : Reg) (imm : Word) (s : State) : Result :=
  finish (.lw rd rs1 imm) (loadEffect s (effectiveAddress s rs1 imm) .word (fun v => v) rd) s

/-- R112: `x[rd] <- zext_8(MemRead(EA, 1))`. -/
def execLbu (rd rs1 : Reg) (imm : Word) (s : State) : Result :=
  finish (.lbu rd rs1 imm) (loadEffect s (effectiveAddress s rs1 imm) .byte (zext 8) rd) s

/-- R113: `x[rd] <- zext_16(MemRead(EA, 2))`. -/
def execLhu (rd rs1 : Reg) (imm : Word) (s : State) : Result :=
  finish (.lhu rd rs1 imm) (loadEffect s (effectiveAddress s rs1 imm) .half (zext 16) rd) s

/-- R114: `MemWrite(EA, 1, x[rs2][7:0])`. -/
def execSb (rs1 rs2 : Reg) (imm : Word) (s : State) : Result :=
  finish (.sb rs1 rs2 imm) (storeEffect s (effectiveAddress s rs1 imm) .byte (s.x rs2)) s

/-- R115: `MemWrite(EA, 2, x[rs2][15:0])`. -/
def execSh (rs1 rs2 : Reg) (imm : Word) (s : State) : Result :=
  finish (.sh rs1 rs2 imm) (storeEffect s (effectiveAddress s rs1 imm) .half (s.x rs2)) s

/-- R116: `MemWrite(EA, 4, x[rs2])`. -/
def execSw (rs1 rs2 : Reg) (imm : Word) (s : State) : Result :=
  finish (.sw rs1 rs2 imm) (storeEffect s (effectiveAddress s rs1 imm) .word (s.x rs2)) s

end Sys2Proof.Machine
end

