-- ==== Sys2Proof/Machine/MulDiv.lean ====
section
/-! DEFINITION. The multiply and divide group of 45_muldiv.md (R129 to R137): exact integers, narrowed at the end. That the group
exists only with `EXT_M = true` is the decoder's rule (R69). -/

namespace Sys2Proof.Machine

/-- Bits `[63:32]` of the exact product of two integers, a 64-bit value (R129). -/
def highWord (p : Int) : Word := (BitVec.ofInt 64 p).extractLsb' 32 32

/-- R134's quotient, the two special cases first; the division rounds toward zero. -/
def divSigned (a b : Word) : Word :=
  if b = 0 then 0xFFFFFFFF#32
  else if a = 0x80000000#32 ∧ b = 0xFFFFFFFF#32 then 0x80000000#32
  else BitVec.ofInt 32 (a.toInt.tdiv b.toInt)

/-- R135's quotient. -/
def divUnsigned (a b : Word) : Word :=
  if b = 0 then 0xFFFFFFFF#32 else BitVec.ofNat 32 (a.toNat / b.toNat)

/-- R136's remainder, the two special cases first; it has the sign of the dividend. -/
def remSigned (a b : Word) : Word :=
  if b = 0 then a
  else if a = 0x80000000#32 ∧ b = 0xFFFFFFFF#32 then 0x00000000#32
  else BitVec.ofInt 32 (a.toInt - b.toInt * a.toInt.tdiv b.toInt)

/-- R137's remainder. -/
def remUnsigned (a b : Word) : Word :=
  if b = 0 then a else BitVec.ofNat 32 (a.toNat % b.toNat)

/-- R130: the low word of the product. -/
def execMul (rd rs1 rs2 : Reg) (s : State) : Result :=
  finish (.mul rd rs1 rs2) (regEffect s rd (s.x rs1 * s.x rs2)) s

/-- R131: the high word, signed by signed. -/
def execMulh (rd rs1 rs2 : Reg) (s : State) : Result :=
  finish (.mulh rd rs1 rs2) (regEffect s rd (highWord ((s.x rs1).toInt * (s.x rs2).toInt))) s

/-- R132: the high word, signed `rs1` by unsigned `rs2`. -/
def execMulhsu (rd rs1 rs2 : Reg) (s : State) : Result :=
  finish (.mulhsu rd rs1 rs2) (regEffect s rd (highWord ((s.x rs1).toInt * ((s.x rs2).toNat : Int)))) s

/-- R133: the high word, unsigned by unsigned. -/
def execMulhu (rd rs1 rs2 : Reg) (s : State) : Result :=
  finish (.mulhu rd rs1 rs2) (regEffect s rd (highWord (((s.x rs1).toNat : Int) * ((s.x rs2).toNat : Int)))) s

/-- R134: signed divide. -/
def execDiv (rd rs1 rs2 : Reg) (s : State) : Result :=
  finish (.div rd rs1 rs2) (regEffect s rd (divSigned (s.x rs1) (s.x rs2))) s

/-- R135: unsigned divide. -/
def execDivu (rd rs1 rs2 : Reg) (s : State) : Result :=
  finish (.divu rd rs1 rs2) (regEffect s rd (divUnsigned (s.x rs1) (s.x rs2))) s

/-- R136: signed remainder. -/
def execRem (rd rs1 rs2 : Reg) (s : State) : Result :=
  finish (.rem rd rs1 rs2) (regEffect s rd (remSigned (s.x rs1) (s.x rs2))) s

/-- R137: unsigned remainder. -/
def execRemu (rd rs1 rs2 : Reg) (s : State) : Result :=
  finish (.remu rd rs1 rs2) (regEffect s rd (remUnsigned (s.x rs1) (s.x rs2))) s

end Sys2Proof.Machine
end

