-- ==== Sys2Proof/Machine/Upper.lean ====
section
/-! DEFINITION. The upper-immediate instructions of 44_upper_immediate.md (R127, R128). -/

namespace Sys2Proof.Machine

/-- R127: `x[rd] <- imm`. -/
def execLui (rd : Reg) (imm : Word) (s : State) : Result :=
  finish (.lui rd imm) (regEffect s rd imm) s

/-- R128: `x[rd] <- pc + imm`, `pc` the address of the AUIPC itself. -/
def execAuipc (rd : Reg) (imm : Word) (s : State) : Result :=
  finish (.auipc rd imm) (regEffect s rd (s.pc + imm)) s

end Sys2Proof.Machine
end

