-- ==== Sys2Proof/Machine/Step.lean ====
section
/-! DEFINITION. The one transition of the engine (40_execution_cycle.md R77): fetch, decode, execute, retire. -/

namespace Sys2Proof.Machine

/-- `step()` (R77): the fetched and decoded instruction executes and retires, or the first error found is raised (R145). -/
def step (s : State) : Host.Outcome State Fault Refusal :=
  match fetchDecode s with
  | .ok i => exec i s
  | .error f => raise f

/-- The state with the table word `w` stored little-endian at `pc`, where `step` fetches (R40, R78): the host's stand-in for
`loadProgram` (assumption log 7). At a `pc` whose word lies outside memory nothing can be stored and the state is unchanged. -/
def State.withFetchWord (s : State) (nbits w : Nat) : State :=
  match memWrite s s.pc .word (BitVec.ofNat 32 (w % 2 ^ nbits)) with
  | .ok m => s.setMem m
  | .error _ => s

end Sys2Proof.Machine
end

