-- ==== Sys2Proof/Machine/HostOps.lean ====
section
/-! DEFINITION. The interfaces of the block (10_state.md R31 to R33): the host operations `reset()` and `loadProgram`, the call of
`step()` with its result record, and the observation surface. All of them act between steps (R32). -/

namespace Sys2Proof.Machine

/-- The errors of the host's own calls, none of which a step raises: `OutOfBounds` of `localRead`, `localWrite`, a range read and
`loadProgram` (R35, R36, R158), with the address as the host gave it (R158; for the others assumption log 11), and
`IndexOutOfRange` (R142). -/
inductive HostError where
  | outOfBounds (address : Int) (byteCount : Nat)
  | indexOutOfRange (i : Int)
deriving DecidableEq, Repr

/-- The retired-instruction record of R33. -/
structure StepResult where
  pcOld : Word
  pcNew : Word
  instr : Instr
  rdWritten : Option Reg
deriving DecidableEq, Repr

/-! ## Mutation -/

/-- `reset()` (R157): registers, `pc`, `pcLast` and `instr`; memory is not changed. It cannot fail. -/
def hostReset (s : State) : State :=
  { s with regs := regsAtReset s.cfg.memSize, pc := resetPc, pcLast := resetPc, instr := none }

/-- The source's bounds test on a host integer: fails when `address < 0` or `address + byteCount > memSize` (R35). -/
def hostInBounds (c : Config) (address : Int) (n : Nat) : Bool :=
  decide (0 ≤ address) && decide (address + n ≤ c.memSize)

/-- `loadProgram(bytes, atAddress)` (R158): all the bytes or none; nothing but memory changes. -/
def loadProgram (s : State) (bytes : List Byte) (atAddress : Int) : Except HostError State :=
  if hostInBounds s.cfg atAddress bytes.length then .ok (s.setMem (Memory.writeBytes s.mem atAddress.toNat bytes))
  else .error (.outOfBounds atAddress bytes.length)

/-- `rdWritten` of a retired instruction (R33, R77): its destination, NONE for `x0` and for an instruction that writes no
register. -/
def rdWrittenOf (i : Instr) : Option Reg :=
  match i.dest with
  | some r => if r = 0 then none else some r
  | none => none

/-- The result record of the step that ended in this state, read from its observation fields (R33: `pcOld` is the new `pcLast`,
`pcNew` the new `pc`, `instr` the new `instr`). NONE when no instruction has retired since the reset. -/
def State.stepResult (s : State) : Option StepResult :=
  match s.instr with
  | some i => some { pcOld := s.pcLast, pcNew := s.pc, instr := i, rdWritten := rdWrittenOf i }
  | none => none

/-- What a call of `step()` leaves to the driver: the outcome and the state the engine is then in (R77). An error leaves the state
as it was (R84, R144), so the next call raises the same error (R85, R147). -/
def stepCall (s : State) : Host.Outcome (Option StepResult) Fault Refusal × State :=
  match step s with
  | .next t => (.next t.stepResult, t)
  | .fault f => (.fault f, s)
  | .refused r => (.refused r, s)

/-! ## Observation -/

/-- The register file's `read(i)` (R20): the signed value, or `IndexOutOfRange`. -/
def State.readIdx (s : State) (i : Int) : Except HostError Int :=
  if h : 0 ≤ i ∧ i < 32 then .ok (s.x ⟨i.toNat, by omega⟩).toInt else .error (.indexOutOfRange i)

/-- The register file's `write(i, value)` (R20), the component's own contract; the host interface does not offer it (92 D23). -/
def RegFile.writeIdx (f : RegFile) (i : Int) (v : Word) : Except HostError RegFile :=
  if h : 0 ≤ i ∧ i < 32 then .ok (RegFile.write f ⟨i.toNat, by omega⟩ v) else .error (.indexOutOfRange i)

/-- `localRead(address, byteCount)` (R35): the little-endian bytes as a signed integer of that many bits. -/
def localRead (s : State) (address : Int) (w : Width) : Except HostError Int :=
  if hostInBounds s.cfg address w.bytes then
    .ok ((Memory.readLE s.mem address.toNat w).setWidth (8 * w.bytes)).toInt
  else .error (.outOfBounds address w.bytes)

/-- `localWrite(address, byteCount, value)` (R36), the memory component's own contract: the value is truncated. -/
def localWrite (s : State) (address : Int) (w : Width) (value : Int) : Except HostError Memory :=
  if hostInBounds s.cfg address w.bytes then
    .ok (Memory.writeBytes s.mem address.toNat (bytesLE (BitVec.ofInt 32 value) w))
  else .error (.outOfBounds address w.bytes)

/-- The observer's memory contents of the range `[address, address + length)`: as many one-byte reads, each under the same bounds
(R35, 92 D25). -/
def readRange (s : State) (address : Int) : Nat → Except HostError (List Byte)
  | 0 => .ok []
  | n + 1 =>
    if hostInBounds s.cfg address 1 then
      match readRange s (address + 1) n with
      | .ok bs => .ok (Memory.get s.mem address.toNat :: bs)
      | .error e => .error e
    else .error (.outOfBounds address 1)

/-- The ABI names in index order (R19). -/
def abiNames : List String :=
  ["zero", "ra", "sp", "gp", "tp", "t0", "t1", "t2", "s0/fp", "s1", "a0", "a1", "a2", "a3", "a4", "a5"]
  ++ ["a6", "a7", "s2", "s3", "s4", "s5", "s6", "s7", "s8", "s9", "s10", "s11", "t3", "t4", "t5", "t6"]

/-- The ABI name of a register (R19, R32), as the source lists it. It has no effect on execution. -/
def abiName (i : Reg) : String := abiNames.getD i.val ""

end Sys2Proof.Machine
end

