-- ==== Sys2Proof/Safety.lean ====
section
/-! DEFINITION. What counts as a safe state and as a run, in the terms the claims use. -/

namespace Sys2Proof.Machine

/-- The invariant of the machine: what every state has that the driver can bring about from construction and a reset. -/
structure State.Inv (s : State) : Prop where
  /-- The parameters meet R7's constraint. -/
  config : s.cfg.wf = true
  /-- Memory is in its canonical form. -/
  memCanonical : Memory.wf s.mem
  /-- Memory lists only the byte array's addresses (R28). -/
  memWithin : Memory.within s.cfg.memSize s.mem
  /-- `pc` is word aligned at every fetch boundary (R21). -/
  pcAligned : s.pc.toNat % 4 = 0
  /-- `pcLast` is an address an instruction was, or can be, fetched from (R23, R78). -/
  pcLastFetchable : s.pcLast.toNat % 4 = 0 ∧ s.pcLast.toNat + 4 ≤ s.cfg.memSize
  /-- The observed instruction is one the engine has (R24, R69). -/
  instrLegal : ∀ i, s.instr = some i → i.wellFormed = true ∧ i.available s.cfg.extM = true

/-- The states a driver reaches from `s` by the three operations of the mutation interface, in any order (R31, R160, R161): `step()`
calls that answer a next state, `reset()`, and `loadProgram` calls that succeed. An operation that fails leaves the state, so it
adds nothing. -/
inductive Reaches (s : State) : State → Prop where
  | start : Reaches s s
  | step {t u : State} : Reaches s t → Machine.step t = .next u → Reaches s u
  | reset {t : State} : Reaches s t → Reaches s (hostReset t)
  | load {t u : State} (bytes : List Byte) (atAddress : Int) :
      Reaches s t → loadProgram t bytes atAddress = .ok u → Reaches s u

end Sys2Proof.Machine
end

