-- ==== Sys2Proof/Certificates/Slice0/Obligations.lean ====
section
/-! DEFINITION. The statements about the model, for the provers. The words they are made of come first (`Sys2Proof.Claims`): what an
instruction leaves alone, what decoding a word gives, and the one error an instruction can raise. -/

open Sys2Proof Sys2Proof.Machine

namespace Sys2Proof.Claims

/-- No register changes. -/
def SameRegs (s t : State) : Prop := ∀ r, t.x r = s.x r

/-- No register but `rd` changes, and none at all when `rd` is `x0`. -/
def SameRegsBut (rd : Reg) (s t : State) : Prop := (∀ r, r ≠ rd → t.x r = s.x r) ∧ t.x 0 = 0

/-- Every byte of memory reads as before. -/
def SameBytes (s t : State) : Prop := ∀ a, Memory.get t.mem a = Memory.get s.mem a

/-- What every retired instruction leaves in the observation fields and in the parameters. -/
def Retired (i : Instr) (s t : State) : Prop := t.pcLast = s.pc ∧ t.instr = some i ∧ t.cfg = s.cfg

/-- The instruction answers a next state that differs in `rd`, which has the property `P` unless it is `x0`, and in `pc`, which
is the next instruction's; nothing else changes but the observation fields. -/
def WritesRd (i : Instr) (rd : Reg) (s : State) (P : Word → Prop) : Prop :=
  ∃ t, exec i s = .next t ∧ (rd ≠ 0 → P (t.x rd)) ∧ SameRegsBut rd s t ∧ SameBytes s t ∧ t.pc = s.pc + 4 ∧ Retired i s t

/-- The instruction answers a next state that differs in `pc` alone; nothing else changes but the observation fields. -/
def OnlyMovesPc (i : Instr) (s : State) (npc : Word) : Prop :=
  ∃ t, exec i s = .next t ∧ SameRegs s t ∧ SameBytes s t ∧ t.pc = npc ∧ Retired i s t

/-- The instruction answers a next state that links `pc + 4` in `rd` and continues at `npc`; nothing else changes but the
observation fields. -/
def JumpsTo (i : Instr) (rd : Reg) (s : State) (npc : Word) : Prop :=
  ∃ t, exec i s = .next t ∧ (rd ≠ 0 → t.x rd = s.pc + 4) ∧ SameRegsBut rd s t ∧ SameBytes s t ∧ t.pc = npc ∧ Retired i s t

/-- The instruction answers a next state in which the `n` bytes at `ea` hold the low bytes of `v`, least significant first, and
every byte outside them reads as before; no register changes. -/
def StoresAt (i : Instr) (s : State) (ea : Word) (n : Nat) (v : Word) : Prop :=
  ∃ t, exec i s = .next t ∧ SameRegs s t ∧ t.pc = s.pc + 4 ∧ Retired i s t ∧
    (∀ a, a < ea.toNat ∨ ea.toNat + n ≤ a → Memory.get t.mem a = Memory.get s.mem a) ∧
    ∀ k, k < n → (Memory.get t.mem (ea.toNat + k)).toNat = v.toNat / 256 ^ k % 256

/-- Every word with this opcode and this funct3 decodes, on every engine, to the given instruction. -/
def DecodesF3 (opcode : BitVec 7) (funct3 : BitVec 3) (mk : Word → Instr) : Prop :=
  ∀ m w, w.extractLsb' 0 7 = opcode → w.extractLsb' 12 3 = funct3 → decode m w = .ok (mk w)

/-- Every word with this opcode, funct3 and funct7 decodes, on every engine, to the given instruction. -/
def DecodesF7 (opcode : BitVec 7) (funct3 : BitVec 3) (funct7 : BitVec 7) (mk : Word → Instr) : Prop :=
  ∀ m w, w.extractLsb' 0 7 = opcode → w.extractLsb' 12 3 = funct3 → w.extractLsb' 25 7 = funct7 → decode m w = .ok (mk w)

/-- Every word of the RV32M group with this funct3 decodes to the given instruction when `EXT_M = true`, and is rejected when it
is false. -/
def DecodesM (funct3 : BitVec 3) (mk : Word → Instr) : Prop :=
  ∀ w, w.extractLsb' 0 7 = 0b0110011#7 → w.extractLsb' 12 3 = funct3 → w.extractLsb' 25 7 = 0b0000001#7 →
    decode true w = .ok (mk w) ∧ ∃ r, decode false w = .error r

/-- A conditional branch, taken under the condition `C`: not taken it goes on, taken it goes to an aligned `pc + imm`, and taken to
a misaligned one it raises `MisalignedPC`. -/
def Branches (mk : Reg → Reg → Word → Instr) (C : Word → Word → Prop) : Prop :=
  ∀ s rs1 rs2 imm,
    (¬ C (s.x rs1) (s.x rs2) → OnlyMovesPc (mk rs1 rs2 imm) s (s.pc + 4)) ∧
    (C (s.x rs1) (s.x rs2) → (s.pc + imm).toNat % 4 = 0 → OnlyMovesPc (mk rs1 rs2 imm) s (s.pc + imm)) ∧
    (C (s.x rs1) (s.x rs2) → (s.pc + imm).toNat % 4 ≠ 0 →
      exec (mk rs1 rs2 imm) s = .fault (.misalignedPC (s.pc + imm)))

/-- The word matches no row of the decode map that exists with this `EXT_M`. -/
def Unmatched (extM : Bool) (w : Word) : Prop :=
  ∀ row ∈ opcodeTable, row.hits w = true → row.needsM = true ∧ extM = false

/-- The one error the instruction itself can raise in this state (R145, point 4); most raise none. -/
def ownError (i : Instr) (s : State) : Option Fault :=
  match i with
  | .lb _ rs1 imm | .lbu _ rs1 imm | .sb rs1 _ imm => some (.outOfBounds (effectiveAddress s rs1 imm) 1)
  | .lh _ rs1 imm | .lhu _ rs1 imm | .sh rs1 _ imm => some (.outOfBounds (effectiveAddress s rs1 imm) 2)
  | .lw _ rs1 imm | .sw rs1 _ imm => some (.outOfBounds (effectiveAddress s rs1 imm) 4)
  | .beq _ _ imm | .bne _ _ imm | .blt _ _ imm | .bge _ _ imm | .bltu _ _ imm | .bgeu _ _ imm | .jal _ imm =>
    some (.misalignedPC (s.pc + imm))
  | .jalr _ rs1 imm => some (.misalignedPC (jalrTarget s rs1 imm))
  | .lui _ _ | .auipc _ _ | .addi _ _ _ | .slti _ _ _ | .sltiu _ _ _ | .xori _ _ _ | .ori _ _ _ | .andi _ _ _
  | .slli _ _ _ | .srli _ _ _ | .srai _ _ _ | .add _ _ _ | .sub _ _ _ | .sll _ _ _ | .slt _ _ _ | .sltu _ _ _
  | .xor _ _ _ | .srl _ _ _ | .sra _ _ _ | .or _ _ _ | .and _ _ _ | .fence _ _ _ _ _
  | .mul _ _ _ | .mulh _ _ _ | .mulhsu _ _ _ | .mulhu _ _ _ | .div _ _ _ | .divu _ _ _ | .rem _ _ _ | .remu _ _ _ => none

/-- The instruction transfers control in this state: a jump, or a branch whose condition holds (R117 to R125). -/
def Taken (i : Instr) (s : State) : Prop :=
  match i with
  | .jal _ _ | .jalr _ _ _ => True
  | .beq rs1 rs2 _ => s.x rs1 = s.x rs2
  | .bne rs1 rs2 _ => s.x rs1 ≠ s.x rs2
  | .blt rs1 rs2 _ => (s.x rs1).toInt < (s.x rs2).toInt
  | .bge rs1 rs2 _ => (s.x rs2).toInt ≤ (s.x rs1).toInt
  | .bltu rs1 rs2 _ => (s.x rs1).toNat < (s.x rs2).toNat
  | .bgeu rs1 rs2 _ => (s.x rs2).toNat ≤ (s.x rs1).toNat
  | .lui _ _ | .auipc _ _ | .lb _ _ _ | .lh _ _ _ | .lw _ _ _ | .lbu _ _ _ | .lhu _ _ _ | .sb _ _ _ | .sh _ _ _ | .sw _ _ _
  | .addi _ _ _ | .slti _ _ _ | .sltiu _ _ _ | .xori _ _ _ | .ori _ _ _ | .andi _ _ _ | .slli _ _ _ | .srli _ _ _ | .srai _ _ _
  | .add _ _ _ | .sub _ _ _ | .sll _ _ _ | .slt _ _ _ | .sltu _ _ _ | .xor _ _ _ | .srl _ _ _ | .sra _ _ _ | .or _ _ _
  | .and _ _ _ | .fence _ _ _ _ _
  | .mul _ _ _ | .mulh _ _ _ | .mulhsu _ _ _ | .mulhu _ _ _ | .div _ _ _ | .divu _ _ _ | .rem _ _ _ | .remu _ _ _ => False

/-- Where R82 sends the instruction after an instruction that retires: the next one, or, for a transfer, its target. -/
def NextPcs (i : Instr) (s : State) (npc : Word) : Prop :=
  match i with
  | .beq rs1 rs2 imm => npc = if s.x rs1 = s.x rs2 then s.pc + imm else s.pc + 4
  | .bne rs1 rs2 imm => npc = if s.x rs1 ≠ s.x rs2 then s.pc + imm else s.pc + 4
  | .blt rs1 rs2 imm => npc = if (s.x rs1).toInt < (s.x rs2).toInt then s.pc + imm else s.pc + 4
  | .bge rs1 rs2 imm => npc = if (s.x rs2).toInt ≤ (s.x rs1).toInt then s.pc + imm else s.pc + 4
  | .bltu rs1 rs2 imm => npc = if (s.x rs1).toNat < (s.x rs2).toNat then s.pc + imm else s.pc + 4
  | .bgeu rs1 rs2 imm => npc = if (s.x rs2).toNat ≤ (s.x rs1).toNat then s.pc + imm else s.pc + 4
  | .jal _ imm => npc = s.pc + imm
  | .jalr _ rs1 imm => npc = jalrTarget s rs1 imm
  | .lui _ _ | .auipc _ _ | .lb _ _ _ | .lh _ _ _ | .lw _ _ _ | .lbu _ _ _ | .lhu _ _ _ | .sb _ _ _ | .sh _ _ _ | .sw _ _ _
  | .addi _ _ _ | .slti _ _ _ | .sltiu _ _ _ | .xori _ _ _ | .ori _ _ _ | .andi _ _ _ | .slli _ _ _ | .srli _ _ _ | .srai _ _ _
  | .add _ _ _ | .sub _ _ _ | .sll _ _ _ | .slt _ _ _ | .sltu _ _ _ | .xor _ _ _ | .srl _ _ _ | .sra _ _ _ | .or _ _ _
  | .and _ _ _ | .fence _ _ _ _ _
  | .mul _ _ _ | .mulh _ _ _ | .mulhsu _ _ _ | .mulhu _ _ _ | .div _ _ _ | .divu _ _ _ | .rem _ _ _ | .remu _ _ _ =>
    npc = s.pc + 4

end Sys2Proof.Claims

open Sys2Proof.Claims

/-! ## Reset and invariants -/

/-- R157: what `reset()` leaves in every component, from any state. -/
def Obligations.ResetLeavesTheResetValues : Prop :=
  ∀ s : State,
    (∀ r : Reg, (hostReset s).x r = if r = 2 then BitVec.ofNat 32 s.cfg.memSize else 0) ∧
    (hostReset s).pc = 0x00000000#32 ∧ (hostReset s).pcLast = 0x00000000#32 ∧ (hostReset s).instr = none ∧
    (hostReset s).mem = s.mem ∧ (hostReset s).cfg = s.cfg ∧
    hostReset s = State.launch s.cfg s.mem

/-- The launch state of every legal choice of the open parameters and of `INIT_MEM` meets the invariant, and so does the model's
`State.reset` (parameters 0x1000 and true, memory zero: the model's choice, assumption logs 2 and 3). -/
def Obligations.LaunchStatesMeetTheInvariant : Prop :=
  (∀ (cfg : Config) (mem : Memory), cfg.wf = true → Memory.wf mem → Memory.within cfg.memSize mem →
    (State.launch cfg mem).Inv) ∧
  State.reset.Inv

/-- Every step keeps the invariant, from every state that has it. -/
def Obligations.StepKeepsTheInvariant : Prop :=
  ∀ s t : State, s.Inv → step s = .next t → t.Inv

/-- Whatever the driver does with the three operations of the mutation interface, after construction with any legal parameters and
any `INIT_MEM` and a reset, the state meets the invariant, the parameters are those of the construction, and the next step is
never refused. -/
def Obligations.EveryReachableStateMeetsTheInvariant : Prop :=
  ∀ (cfg : Config) (mem : Memory) (t : State),
    cfg.wf = true → Memory.wf mem → Memory.within cfg.memSize mem → Reaches (State.launch cfg mem) t →
    t.Inv ∧ t.cfg = cfg ∧ ∀ r, step t ≠ .refused r

/-! ## Encoding and decoding -/

/-- The decoder reads back every instruction the engine has from its word, with every operand (95 W8). -/
def Obligations.DecodeInvertsEncode : Prop :=
  ∀ (extM : Bool) (i : Instr), i.wellFormed = true → i.available extM = true → decode extM (encode i) = .ok i

/-- Re-encoding a decoded word reproduces it, and the decoder gives only instructions the engine has (95 W8): no bit of a word is
dropped. -/
def Obligations.EncodeInvertsDecode : Prop :=
  ∀ (extM : Bool) (w : Word) (i : Instr), decode extM w = .ok i →
    encode i = w ∧ i.wellFormed = true ∧ i.available extM = true

/-- R69: a word decodes to the instruction of the row whose fixed fields it matches, if that row exists on the engine; a word that
matches no such row is rejected; and no word matches two rows. -/
def Obligations.DecodeFollowsTheOpcodeTable : Prop :=
  opcodeTable.length = 46 ∧
  (∀ extM w, ∀ row ∈ opcodeTable, row.hits w = true → (row.needsM = true → extM = true) →
    ∃ i, decode extM w = .ok i ∧ i.mnemonic = row.mnemonic ∧ i.iType = row.format ∧ i.needsM = row.needsM) ∧
  (∀ extM w, Unmatched extM w → ∃ r, decode extM w = .error r) ∧
  (∀ w, ∀ row ∈ opcodeTable, ∀ row' ∈ opcodeTable, row.hits w = true → row'.hits w = true → row = row')

/-- R70: a fetched word that matches no row ends the step with `DecodeError(pc, word)`, the state unchanged. -/
def Obligations.UnmatchedWordsRaiseDecodeError : Prop :=
  ∀ s w, fetch s = .ok w → Unmatched s.cfg.extM w →
    step s = .fault (.decodeError s.pc w) ∧ (stepCall s).2 = s

/-- R71, R73, R140: the unlisted combinations, the custom opcodes, the rest of MISC-MEM and all of SYSTEM raise
`DecodeError`. -/
def Obligations.ReservedCustomAndSystemWordsRaiseDecodeError : Prop :=
  ∀ s w, fetch s = .ok w →
    ((w.extractLsb' 0 7 = 0b1100111#7 ∧ w.extractLsb' 12 3 ≠ 0b000#3) ∨
     (w.extractLsb' 0 7 = 0b1100011#7 ∧ w.extractLsb' 12 3 ∈ [0b010#3, 0b011#3]) ∨
     (w.extractLsb' 0 7 = 0b0000011#7 ∧ w.extractLsb' 12 3 ∈ [0b011#3, 0b110#3, 0b111#3]) ∨
     (w.extractLsb' 0 7 = 0b0100011#7 ∧ w.extractLsb' 12 3 ∈ [0b011#3, 0b100#3, 0b101#3, 0b110#3, 0b111#3]) ∨
     (w.extractLsb' 0 7 = 0b0010011#7 ∧ w.extractLsb' 12 3 = 0b001#3 ∧ w.extractLsb' 25 7 ≠ 0b0000000#7) ∨
     (w.extractLsb' 0 7 = 0b0010011#7 ∧ w.extractLsb' 12 3 = 0b101#3 ∧
       w.extractLsb' 25 7 ≠ 0b0000000#7 ∧ w.extractLsb' 25 7 ≠ 0b0100000#7) ∨
     (w.extractLsb' 0 7 = 0b0110011#7 ∧ w.extractLsb' 25 7 ≠ 0b0000000#7 ∧ w.extractLsb' 25 7 ≠ 0b0100000#7 ∧
       w.extractLsb' 25 7 ≠ 0b0000001#7) ∨
     (w.extractLsb' 0 7 = 0b0110011#7 ∧ w.extractLsb' 25 7 = 0b0100000#7 ∧ w.extractLsb' 12 3 ≠ 0b000#3 ∧
       w.extractLsb' 12 3 ≠ 0b101#3) ∨
     (w.extractLsb' 0 7 = 0b0110011#7 ∧ w.extractLsb' 25 7 = 0b0000001#7 ∧ s.cfg.extM = false) ∨
     (w.extractLsb' 0 7 = 0b0001111#7 ∧ w.extractLsb' 12 3 ≠ 0b000#3) ∨
     w.extractLsb' 0 7 ∈ [0b0001011#7, 0b0101011#7, 0b1011011#7, 0b1111011#7] ∨
     w.extractLsb' 0 7 = 0b1110011#7) →
    step s = .fault (.decodeError s.pc w) ∧ (stepCall s).2 = s

/-- R54: the fixed field positions, as arithmetic on the word's value. -/
def Obligations.FieldsStandAtTheirPositions : Prop :=
  ∀ w : Word,
    (opcodeOf w).toNat = w.toNat % 2 ^ 7 ∧ (rdOf w).val = w.toNat / 2 ^ 7 % 2 ^ 5 ∧
    (funct3Of w).toNat = w.toNat / 2 ^ 12 % 2 ^ 3 ∧ (rs1Of w).val = w.toNat / 2 ^ 15 % 2 ^ 5 ∧
    (rs2Of w).val = w.toNat / 2 ^ 20 % 2 ^ 5 ∧ (funct7Of w).toNat = w.toNat / 2 ^ 25 ∧
    (shamtOf w).val = w.toNat / 2 ^ 20 % 2 ^ 5

/-- R61 to R65: every bit of every immediate, and the range each can have. -/
def Obligations.ImmediatesAreAssembledBitByBit : Prop :=
  (∀ (w : Word) (k : Nat), k < 32 →
    ((immI w).getLsbD k = if k < 11 then w.getLsbD (k + 20) else w.getLsbD 31) ∧
    ((immS w).getLsbD k = if k < 5 then w.getLsbD (k + 7) else if k < 11 then w.getLsbD (k + 20) else w.getLsbD 31) ∧
    ((immB w).getLsbD k = if k = 0 then false else if k < 5 then w.getLsbD (k + 7) else if k < 11 then w.getLsbD (k + 20)
      else if k = 11 then w.getLsbD 7 else w.getLsbD 31) ∧
    ((immU w).getLsbD k = if k < 12 then false else w.getLsbD k) ∧
    ((immJ w).getLsbD k = if k = 0 then false else if k < 11 then w.getLsbD (k + 20) else if k = 11 then w.getLsbD 20
      else if k < 20 then w.getLsbD k else w.getLsbD 31)) ∧
  ∀ w : Word, immFits12 (immI w) = true ∧ immFits12 (immS w) = true ∧ immFitsB (immB w) = true ∧
    immFitsU (immU w) = true ∧ immFitsJ (immJ w) = true

/-- A sanity statement: words written out from the spec's encodings, one for each family, decode to what they stand for. -/
def Obligations.WrittenOutWordsDecode : Prop :=
  decode true 0xFFF58513#32 = .ok (.addi 10 11 0xFFFFFFFF#32) ∧
  decode true 0x40C5D533#32 = .ok (.sra 10 11 12) ∧
  decode true 0x4035D513#32 = .ok (.srai 10 11 3) ∧
  decode true 0xFFC5A503#32 = .ok (.lw 10 11 0xFFFFFFFC#32) ∧
  decode true 0xFEC5AE23#32 = .ok (.sw 11 12 0xFFFFFFFC#32) ∧
  decode true 0xFEB51CE3#32 = .ok (.bne 10 11 0xFFFFFFF8#32) ∧
  decode true 0xFC1FF06F#32 = .ok (.jal 0 0xFFFFFFC0#32) ∧
  decode true 0x004500E7#32 = .ok (.jalr 1 10 0x00000004#32) ∧
  decode true 0x12345537#32 = .ok (.lui 10 0x12345000#32) ∧
  decode true 0x02C5C533#32 = .ok (.div 10 11 12) ∧
  decode true 0x8330000F#32 = .ok (.fence 0b1000#4 0b0011#4 0b0011#4 0 0)

/-! ## The step -/

/-- R77 to R79: at an aligned `pc` inside memory, when the four bytes there, least significant first, decode to an instruction, the
step is that instruction's execution and nothing is added around it. -/
def Obligations.StepRunsTheDecodedInstruction : Prop :=
  ∀ (s : State) (i : Instr), s.pc.toNat % 4 = 0 → s.pc.toNat + 4 ≤ s.cfg.memSize →
    decode s.cfg.extM (Memory.get s.mem (s.pc.toNat + 3) ++ Memory.get s.mem (s.pc.toNat + 2)
      ++ Memory.get s.mem (s.pc.toNat + 1) ++ Memory.get s.mem s.pc.toNat) = .ok i →
    step s = exec i s

/-- R145: the order of the checks, and that the instruction's own error is the only one after them. -/
def Obligations.ErrorsAreReportedInOrder : Prop :=
  ∀ s : State,
    (s.pc.toNat % 4 ≠ 0 → step s = .fault (.misalignedPC s.pc)) ∧
    (s.pc.toNat % 4 = 0 → s.cfg.memSize < s.pc.toNat + 4 → step s = .fault (.outOfBounds s.pc 4)) ∧
    (∀ w, fetch s = .ok w → (∀ i, decode s.cfg.extM w ≠ .ok i) → step s = .fault (.decodeError s.pc w)) ∧
    (∀ w i, fetch s = .ok w → decode s.cfg.extM w = .ok i → step s = exec i s) ∧
    (∀ i f, exec i s = .fault f → ownError i s = some f)

/-- R141: the outcomes of a step other than a next state are exactly the three errors, each exactly when its own reason holds and
with its own data; no step is refused. -/
def Obligations.StepOutcomesAreExactlyTheSpecs : Prop :=
  ∀ s : State,
    (∀ r, step s ≠ .refused r) ∧
    (∀ p w, step s = .fault (.decodeError p w) ↔ p = s.pc ∧ fetch s = .ok w ∧ Unmatched s.cfg.extM w) ∧
    (∀ a n, step s = .fault (.outOfBounds a n) ↔
      (a = s.pc ∧ n = 4 ∧ s.pc.toNat % 4 = 0 ∧ s.cfg.memSize < s.pc.toNat + 4) ∨
      ∃ w i, fetch s = .ok w ∧ decode s.cfg.extM w = .ok i ∧ ownError i s = some (.outOfBounds a n) ∧
        s.cfg.memSize < a.toNat + n) ∧
    (∀ t, step s = .fault (.misalignedPC t) ↔
      (t = s.pc ∧ s.pc.toNat % 4 ≠ 0) ∨
      ∃ w i, fetch s = .ok w ∧ decode s.cfg.extM w = .ok i ∧ Taken i s ∧ ownError i s = some (.misalignedPC t) ∧
        t.toNat % 4 ≠ 0)

/-- R144: an error leaves the state exactly as it was; so the next call raises the same error (R85, R147). -/
def Obligations.AnErrorLeavesTheState : Prop :=
  ∀ (s : State) (f : Fault), step s = .fault f →
    stepCall s = (.fault f, s) ∧ stepCall (stepCall s).2 = (.fault f, s)

/-- R23, R24: after a step `pcLast` is the address fetched from and `instr` the decoded record: its type, its raw fields and its
params, each from the fetched word; after `reset()` there is none; a failing step changes neither; and no step reads either, so
another value in them changes nothing about the step. -/
def Obligations.TheRetiredInstructionIsObserved : Prop :=
  (∀ s t : State, step s = .next t → ∃ w i, fetch s = .ok w ∧ decode s.cfg.extM w = .ok i ∧
    t.pcLast = s.pc ∧ t.instr = some i ∧
    i.record.iType = i.iType ∧ i.record.opcode = w.extractLsb' 0 7 ∧ i.record.funct3 = w.extractLsb' 12 3 ∧
    i.record.funct7 = w.extractLsb' 25 7 ∧
    i.record.params =
      match i.iType with
      | .R => ⟨some (rdOf w), some (rs1Of w), some (rs2Of w), none⟩
      | .I => ⟨some (rdOf w), some (rs1Of w), none, some (immI w)⟩
      | .S => ⟨none, some (rs1Of w), some (rs2Of w), some (immS w)⟩
      | .B => ⟨none, some (rs1Of w), some (rs2Of w), some (immB w)⟩
      | .U => ⟨some (rdOf w), none, none, some (immU w)⟩
      | .J => ⟨some (rdOf w), none, none, some (immJ w)⟩) ∧
  (∀ s : State, (hostReset s).instr = none ∧ (hostReset s).pcLast = resetPc) ∧
  (∀ (s : State) (f : Fault), step s = .fault f →
    (stepCall s).2.instr = s.instr ∧ (stepCall s).2.pcLast = s.pcLast) ∧
  (∀ (s : State) (a : Word) (j : Option Instr), step { s with pcLast := a, instr := j } = step s)

/-- R33, R77: a step that retires returns the old and the new pc, the instruction and the register written: NONE exactly when the
instruction writes no register or `x0`, and no register changes but the one returned; any other step returns its one error. -/
def Obligations.StepReturnsItsResultRecord : Prop :=
  (∀ (s : State) (f : Fault), step s = .fault f → (stepCall s).1 = .fault f) ∧
  ∀ s t : State, step s = .next t →
    ∃ r : StepResult, stepCall s = (.next (some r), t) ∧ r.pcOld = s.pc ∧ r.pcNew = t.pc ∧ t.instr = some r.instr ∧
      r.pcOld = t.pcLast ∧
      (∀ k : Reg, r.rdWritten = some k ↔ r.instr.dest = some k ∧ k ≠ 0) ∧
      (∀ k : Reg, r.rdWritten ≠ some k → t.x k = s.x k)

/-- R43: no instruction but a store changes a byte of memory. -/
def Obligations.OnlyStoresWriteMemory : Prop :=
  ∀ (i : Instr) (s t : State), exec i s = .next t → i.iType ≠ .S → SameBytes s t

/-- No instruction changes a register that is not its destination, and none changes the parameters; branches, stores and FENCE
have no destination. -/
def Obligations.OnlyTheDestinationRegisterChanges : Prop :=
  ∀ (i : Instr) (s t : State), exec i s = .next t →
    (∀ r, i.dest ≠ some r → t.x r = s.x r) ∧ t.cfg = s.cfg ∧
    (i.iType = .B ∨ i.iType = .S → SameRegs s t) ∧
    (∀ fm pred succ rd rs1, i = .fence fm pred succ rd rs1 → SameRegs s t)

/-- R82: only a taken branch, JAL and JALR leave the sequence. -/
def Obligations.NextPcIsTheSequenceOrTheTarget : Prop :=
  ∀ (i : Instr) (s t : State), exec i s = .next t → NextPcs i s t.pc

/-- R21, R117: every step leaves an aligned `pc`, wherever it points; outside memory the next fetch raises `OutOfBounds`. -/
def Obligations.EveryStepLeavesAnAlignedPc : Prop :=
  ∀ s t : State, step s = .next t →
    t.pc.toNat % 4 = 0 ∧ (s.cfg.memSize < t.pc.toNat + 4 → step t = .fault (.outOfBounds t.pc 4))

/-- R22: with legal parameters the sequential `pc + 4` of a fetched instruction never wraps. -/
def Obligations.SequentialPcNeverWraps : Prop :=
  ∀ (s : State) (w : Word), s.cfg.wf = true → fetch s = .ok w →
    (s.pc + 4).toNat = s.pc.toNat + 4 ∧ (s.pc + 4).toNat ≤ s.cfg.memSize

/-- R16, R17: `x0` reads zero in every state, and an instruction whose destination is `x0` changes no register, while the rest of it
still happens: a jump still jumps and a load still reads and can raise `OutOfBounds`. -/
def Obligations.RegisterZeroIsHardWired : Prop :=
  (∀ s : State, s.x 0 = 0 ∧ s.readIdx 0 = .ok 0) ∧
  (∀ (i : Instr) (s t : State), exec i s = .next t → i.dest = some 0 → SameRegs s t) ∧
  (∀ (s t : State) (imm : Word), exec (.jal 0 imm) s = .next t → t.pc = s.pc + imm) ∧
  (∀ (s : State) (rs1 : Reg) (imm : Word), s.cfg.memSize < (effectiveAddress s rs1 imm).toNat + 4 →
    exec (.lw 0 rs1 imm) s = .fault (.outOfBounds (effectiveAddress s rs1 imm) 4))

/-! ## Integer instructions -/

/-- R88, R97, R98: addition and subtraction modulo 2^32. -/
def Obligations.AddAndSubtractWrap : Prop :=
  (∀ s rd rs1 imm, WritesRd (.addi rd rs1 imm) rd s fun v => v.toNat = ((s.x rs1).toNat + imm.toNat) % 2 ^ 32) ∧
  (∀ s rd rs1 rs2, WritesRd (.add rd rs1 rs2) rd s fun v => v.toNat = ((s.x rs1).toNat + (s.x rs2).toNat) % 2 ^ 32) ∧
  (∀ s rd rs1 rs2, WritesRd (.sub rd rs1 rs2) rd s fun v =>
    v.toNat = (2 ^ 32 + (s.x rs1).toNat - (s.x rs2).toNat) % 2 ^ 32) ∧
  DecodesF3 0b0010011#7 0b000#3 (fun w => .addi (rdOf w) (rs1Of w) (immI w)) ∧
  DecodesF7 0b0110011#7 0b000#3 0b0000000#7 (fun w => .add (rdOf w) (rs1Of w) (rs2Of w)) ∧
  DecodesF7 0b0110011#7 0b000#3 0b0100000#7 (fun w => .sub (rdOf w) (rs1Of w) (rs2Of w))

/-- R89, R90, R100, R101: the comparisons write 1 or 0. -/
def Obligations.SetLessThanWritesOneOrZero : Prop :=
  (∀ s rd rs1 imm, WritesRd (.slti rd rs1 imm) rd s fun v => v.toNat = if (s.x rs1).toInt < imm.toInt then 1 else 0) ∧
  (∀ s rd rs1 imm, WritesRd (.sltiu rd rs1 imm) rd s fun v => v.toNat = if (s.x rs1).toNat < imm.toNat then 1 else 0) ∧
  (∀ s rd rs1 rs2, WritesRd (.slt rd rs1 rs2) rd s fun v =>
    v.toNat = if (s.x rs1).toInt < (s.x rs2).toInt then 1 else 0) ∧
  (∀ s rd rs1 rs2, WritesRd (.sltu rd rs1 rs2) rd s fun v =>
    v.toNat = if (s.x rs1).toNat < (s.x rs2).toNat then 1 else 0) ∧
  DecodesF3 0b0010011#7 0b010#3 (fun w => .slti (rdOf w) (rs1Of w) (immI w)) ∧
  DecodesF3 0b0010011#7 0b011#3 (fun w => .sltiu (rdOf w) (rs1Of w) (immI w)) ∧
  DecodesF7 0b0110011#7 0b010#3 0b0000000#7 (fun w => .slt (rdOf w) (rs1Of w) (rs2Of w)) ∧
  DecodesF7 0b0110011#7 0b011#3 0b0000000#7 (fun w => .sltu (rdOf w) (rs1Of w) (rs2Of w))

/-- R91, R92, R93, R102, R105, R106: the logical instructions, bit by bit. -/
def Obligations.LogicalInstructionsActBitwise : Prop :=
  (∀ s rd rs1 imm, WritesRd (.xori rd rs1 imm) rd s fun v => ∀ k, v.getLsbD k = ((s.x rs1).getLsbD k != imm.getLsbD k)) ∧
  (∀ s rd rs1 imm, WritesRd (.ori rd rs1 imm) rd s fun v => ∀ k, v.getLsbD k = ((s.x rs1).getLsbD k || imm.getLsbD k)) ∧
  (∀ s rd rs1 imm, WritesRd (.andi rd rs1 imm) rd s fun v => ∀ k, v.getLsbD k = ((s.x rs1).getLsbD k && imm.getLsbD k)) ∧
  (∀ s rd rs1 rs2, WritesRd (.xor rd rs1 rs2) rd s fun v =>
    ∀ k, v.getLsbD k = ((s.x rs1).getLsbD k != (s.x rs2).getLsbD k)) ∧
  (∀ s rd rs1 rs2, WritesRd (.or rd rs1 rs2) rd s fun v =>
    ∀ k, v.getLsbD k = ((s.x rs1).getLsbD k || (s.x rs2).getLsbD k)) ∧
  (∀ s rd rs1 rs2, WritesRd (.and rd rs1 rs2) rd s fun v =>
    ∀ k, v.getLsbD k = ((s.x rs1).getLsbD k && (s.x rs2).getLsbD k)) ∧
  DecodesF3 0b0010011#7 0b100#3 (fun w => .xori (rdOf w) (rs1Of w) (immI w)) ∧
  DecodesF3 0b0010011#7 0b110#3 (fun w => .ori (rdOf w) (rs1Of w) (immI w)) ∧
  DecodesF3 0b0010011#7 0b111#3 (fun w => .andi (rdOf w) (rs1Of w) (immI w)) ∧
  DecodesF7 0b0110011#7 0b100#3 0b0000000#7 (fun w => .xor (rdOf w) (rs1Of w) (rs2Of w)) ∧
  DecodesF7 0b0110011#7 0b110#3 0b0000000#7 (fun w => .or (rdOf w) (rs1Of w) (rs2Of w)) ∧
  DecodesF7 0b0110011#7 0b111#3 0b0000000#7 (fun w => .and (rdOf w) (rs1Of w) (rs2Of w))

/-- R94, R95, R96: the shifts by an immediate, as multiplication and division by a power of two (rounding down). -/
def Obligations.ImmediateShiftsScaleByAPowerOfTwo : Prop :=
  (∀ s rd rs1 shamt, WritesRd (.slli rd rs1 shamt) rd s fun v => v.toNat = (s.x rs1).toNat * 2 ^ shamt.val % 2 ^ 32) ∧
  (∀ s rd rs1 shamt, WritesRd (.srli rd rs1 shamt) rd s fun v => v.toNat = (s.x rs1).toNat / 2 ^ shamt.val) ∧
  (∀ s rd rs1 shamt, WritesRd (.srai rd rs1 shamt) rd s fun v => v.toInt = (s.x rs1).toInt / 2 ^ shamt.val) ∧
  DecodesF7 0b0010011#7 0b001#3 0b0000000#7 (fun w => .slli (rdOf w) (rs1Of w) (shamtOf w)) ∧
  DecodesF7 0b0010011#7 0b101#3 0b0000000#7 (fun w => .srli (rdOf w) (rs1Of w) (shamtOf w)) ∧
  DecodesF7 0b0010011#7 0b101#3 0b0100000#7 (fun w => .srai (rdOf w) (rs1Of w) (shamtOf w)) ∧
  (∀ m w, w.extractLsb' 0 7 = 0b0010011#7 → w.extractLsb' 12 3 = 0b001#3 → w.extractLsb' 25 7 ≠ 0b0000000#7 →
    ∃ r, decode m w = .error r)

/-- R99, R103, R104: the shifts by a register, the amount masked to 5 bits. -/
def Obligations.RegisterShiftsMaskTheAmount : Prop :=
  (∀ s rd rs1 rs2, WritesRd (.sll rd rs1 rs2) rd s fun v =>
    v.toNat = (s.x rs1).toNat * 2 ^ ((s.x rs2).toNat % 32) % 2 ^ 32) ∧
  (∀ s rd rs1 rs2, WritesRd (.srl rd rs1 rs2) rd s fun v => v.toNat = (s.x rs1).toNat / 2 ^ ((s.x rs2).toNat % 32)) ∧
  (∀ s rd rs1 rs2, WritesRd (.sra rd rs1 rs2) rd s fun v => v.toInt = (s.x rs1).toInt / 2 ^ ((s.x rs2).toNat % 32)) ∧
  DecodesF7 0b0110011#7 0b001#3 0b0000000#7 (fun w => .sll (rdOf w) (rs1Of w) (rs2Of w)) ∧
  DecodesF7 0b0110011#7 0b101#3 0b0000000#7 (fun w => .srl (rdOf w) (rs1Of w) (rs2Of w)) ∧
  DecodesF7 0b0110011#7 0b101#3 0b0100000#7 (fun w => .sra (rdOf w) (rs1Of w) (rs2Of w))

/-- R127, R128: LUI writes its immediate, AUIPC adds it to its own address modulo 2^32. -/
def Obligations.UpperImmediatesAreWrittenOrAddedToPc : Prop :=
  (∀ s rd imm, WritesRd (.lui rd imm) rd s fun v => v = imm) ∧
  (∀ s rd imm, WritesRd (.auipc rd imm) rd s fun v => v.toNat = (s.pc.toNat + imm.toNat) % 2 ^ 32) ∧
  (∀ m w, w.extractLsb' 0 7 = 0b0110111#7 → decode m w = .ok (.lui (rdOf w) (immU w))) ∧
  (∀ m w, w.extractLsb' 0 7 = 0b0010111#7 → decode m w = .ok (.auipc (rdOf w) (immU w)))

/-- R130 to R133: the low and the high words of the exact products (the high word is the product divided by 2^32, rounded down). -/
def Obligations.MultiplyReturnsWordsOfTheExactProduct : Prop :=
  (∀ s rd rs1 rs2, WritesRd (.mul rd rs1 rs2) rd s fun v =>
    v.toNat = (s.x rs1).toNat * (s.x rs2).toNat % 2 ^ 32) ∧
  (∀ s rd rs1 rs2, WritesRd (.mulh rd rs1 rs2) rd s fun v => v.toInt = (s.x rs1).toInt * (s.x rs2).toInt / 2 ^ 32) ∧
  (∀ s rd rs1 rs2, WritesRd (.mulhsu rd rs1 rs2) rd s fun v =>
    v.toInt = (s.x rs1).toInt * ((s.x rs2).toNat : Int) / 2 ^ 32) ∧
  (∀ s rd rs1 rs2, WritesRd (.mulhu rd rs1 rs2) rd s fun v =>
    v.toNat = (s.x rs1).toNat * (s.x rs2).toNat / 2 ^ 32) ∧
  DecodesM 0b000#3 (fun w => .mul (rdOf w) (rs1Of w) (rs2Of w)) ∧
  DecodesM 0b001#3 (fun w => .mulh (rdOf w) (rs1Of w) (rs2Of w)) ∧
  DecodesM 0b010#3 (fun w => .mulhsu (rdOf w) (rs1Of w) (rs2Of w)) ∧
  DecodesM 0b011#3 (fun w => .mulhu (rdOf w) (rs1Of w) (rs2Of w))

/-- R134, R135: the quotients, with the two special cases; division by zero and overflow are no errors. -/
def Obligations.DivideRoundsTowardZero : Prop :=
  (∀ s rd rs1 rs2, WritesRd (.div rd rs1 rs2) rd s fun v =>
    if s.x rs2 = 0 then v = 0xFFFFFFFF#32
    else if s.x rs1 = 0x80000000#32 ∧ s.x rs2 = 0xFFFFFFFF#32 then v = 0x80000000#32
    else v.toInt = (s.x rs1).toInt.tdiv (s.x rs2).toInt) ∧
  (∀ s rd rs1 rs2, WritesRd (.divu rd rs1 rs2) rd s fun v =>
    if s.x rs2 = 0 then v = 0xFFFFFFFF#32 else v.toNat = (s.x rs1).toNat / (s.x rs2).toNat) ∧
  DecodesM 0b100#3 (fun w => .div (rdOf w) (rs1Of w) (rs2Of w)) ∧
  DecodesM 0b101#3 (fun w => .divu (rdOf w) (rs1Of w) (rs2Of w))

/-- R136, R137: the remainders, with the two special cases. -/
def Obligations.RemainderMatchesTheQuotient : Prop :=
  (∀ s rd rs1 rs2, WritesRd (.rem rd rs1 rs2) rd s fun v =>
    if s.x rs2 = 0 then v = s.x rs1
    else if s.x rs1 = 0x80000000#32 ∧ s.x rs2 = 0xFFFFFFFF#32 then v = 0x00000000#32
    else v.toInt = (s.x rs1).toInt - (s.x rs2).toInt * (s.x rs1).toInt.tdiv (s.x rs2).toInt) ∧
  (∀ s rd rs1 rs2, WritesRd (.remu rd rs1 rs2) rd s fun v =>
    if s.x rs2 = 0 then v = s.x rs1 else v.toNat = (s.x rs1).toNat % (s.x rs2).toNat) ∧
  DecodesM 0b110#3 (fun w => .rem (rdOf w) (rs1Of w) (rs2Of w)) ∧
  DecodesM 0b111#3 (fun w => .remu (rdOf w) (rs1Of w) (rs2Of w))

/-- R129: what DIV and REM of the same operands write satisfies the division law, and a remainder that is not zero has the sign of
the dividend; what DIVU and REMU write satisfies it unsigned. -/
def Obligations.DivisionLaw : Prop :=
  (∀ (s t u : State) (rd rd' rs1 rs2 : Reg), rd ≠ 0 → rd' ≠ 0 → s.x rs2 ≠ 0 →
    ¬ (s.x rs1 = 0x80000000#32 ∧ s.x rs2 = 0xFFFFFFFF#32) →
    exec (.div rd rs1 rs2) s = .next t → exec (.rem rd' rs1 rs2) s = .next u →
    (s.x rs1).toInt = (s.x rs2).toInt * (t.x rd).toInt + (u.x rd').toInt ∧
    (u.x rd').toInt.natAbs < (s.x rs2).toInt.natAbs ∧
    (0 < (u.x rd').toInt → 0 < (s.x rs1).toInt) ∧ ((u.x rd').toInt < 0 → (s.x rs1).toInt < 0)) ∧
  (∀ (s t u : State) (rd rd' rs1 rs2 : Reg), rd ≠ 0 → rd' ≠ 0 → s.x rs2 ≠ 0 →
    exec (.divu rd rs1 rs2) s = .next t → exec (.remu rd' rs1 rs2) s = .next u →
    (s.x rs1).toNat = (s.x rs2).toNat * (t.x rd).toNat + (u.x rd').toNat ∧ (u.x rd').toNat < (s.x rs2).toNat)

/-! ## Loads and stores -/

/-- R107: the effective address wraps modulo 2^32. -/
def Obligations.EffectiveAddressWraps : Prop :=
  ∀ (s : State) (rs1 : Reg) (imm : Word),
    (effectiveAddress s rs1 imm).toNat = ((s.x rs1).toNat + imm.toNat) % 2 ^ 32 ∧
    ((effectiveAddress s rs1 imm).toNat : Int) = ((s.x rs1).toNat + imm.toInt) % 2 ^ 32

/-- R109, R112: a byte, sign- or zero-extended, from anywhere in memory; outside it `OutOfBounds(EA, 1)`. -/
def Obligations.LoadByteExtends : Prop :=
  (∀ s rd rs1 imm, (effectiveAddress s rs1 imm).toNat + 1 ≤ s.cfg.memSize →
    WritesRd (.lb rd rs1 imm) rd s (fun v => v.toInt = (Memory.get s.mem (effectiveAddress s rs1 imm).toNat).toInt) ∧
    WritesRd (.lbu rd rs1 imm) rd s (fun v => v.toNat = (Memory.get s.mem (effectiveAddress s rs1 imm).toNat).toNat)) ∧
  (∀ s rd rs1 imm, s.cfg.memSize < (effectiveAddress s rs1 imm).toNat + 1 →
    exec (.lb rd rs1 imm) s = .fault (.outOfBounds (effectiveAddress s rs1 imm) 1) ∧
    exec (.lbu rd rs1 imm) s = .fault (.outOfBounds (effectiveAddress s rs1 imm) 1)) ∧
  DecodesF3 0b0000011#7 0b000#3 (fun w => .lb (rdOf w) (rs1Of w) (immI w)) ∧
  DecodesF3 0b0000011#7 0b100#3 (fun w => .lbu (rdOf w) (rs1Of w) (immI w))

/-- R110, R113: a halfword at any alignment, the low byte first, sign- or zero-extended; outside memory `OutOfBounds(EA, 2)`. -/
def Obligations.LoadHalfwordExtends : Prop :=
  (∀ s rd rs1 imm, (effectiveAddress s rs1 imm).toNat + 2 ≤ s.cfg.memSize →
    WritesRd (.lh rd rs1 imm) rd s (fun v =>
      v.toInt = (Memory.get s.mem ((effectiveAddress s rs1 imm).toNat + 1)).toInt * 256
        + (Memory.get s.mem (effectiveAddress s rs1 imm).toNat).toNat) ∧
    WritesRd (.lhu rd rs1 imm) rd s (fun v =>
      v.toNat = (Memory.get s.mem ((effectiveAddress s rs1 imm).toNat + 1)).toNat * 256
        + (Memory.get s.mem (effectiveAddress s rs1 imm).toNat).toNat)) ∧
  (∀ s rd rs1 imm, s.cfg.memSize < (effectiveAddress s rs1 imm).toNat + 2 →
    exec (.lh rd rs1 imm) s = .fault (.outOfBounds (effectiveAddress s rs1 imm) 2) ∧
    exec (.lhu rd rs1 imm) s = .fault (.outOfBounds (effectiveAddress s rs1 imm) 2)) ∧
  DecodesF3 0b0000011#7 0b001#3 (fun w => .lh (rdOf w) (rs1Of w) (immI w)) ∧
  DecodesF3 0b0000011#7 0b101#3 (fun w => .lhu (rdOf w) (rs1Of w) (immI w))

/-- R111: a word at any alignment, the low byte first; outside memory `OutOfBounds(EA, 4)`. -/
def Obligations.LoadWordIsLittleEndian : Prop :=
  (∀ s rd rs1 imm, (effectiveAddress s rs1 imm).toNat + 4 ≤ s.cfg.memSize →
    WritesRd (.lw rd rs1 imm) rd s (fun v =>
      v.toNat = (Memory.get s.mem ((effectiveAddress s rs1 imm).toNat + 3)).toNat * 256 ^ 3
        + (Memory.get s.mem ((effectiveAddress s rs1 imm).toNat + 2)).toNat * 256 ^ 2
        + (Memory.get s.mem ((effectiveAddress s rs1 imm).toNat + 1)).toNat * 256
        + (Memory.get s.mem (effectiveAddress s rs1 imm).toNat).toNat)) ∧
  (∀ s rd rs1 imm, s.cfg.memSize < (effectiveAddress s rs1 imm).toNat + 4 →
    exec (.lw rd rs1 imm) s = .fault (.outOfBounds (effectiveAddress s rs1 imm) 4)) ∧
  DecodesF3 0b0000011#7 0b010#3 (fun w => .lw (rdOf w) (rs1Of w) (immI w))

/-- R114, R115, R116: a store writes the low bytes of `x[rs2]` at the effective address, least significant first, and no other
byte; outside memory it raises `OutOfBounds` and writes nothing. -/
def Obligations.StoresWriteTheirBytesOnly : Prop :=
  (∀ s rs1 rs2 imm, (effectiveAddress s rs1 imm).toNat + 1 ≤ s.cfg.memSize →
    StoresAt (.sb rs1 rs2 imm) s (effectiveAddress s rs1 imm) 1 (s.x rs2)) ∧
  (∀ s rs1 rs2 imm, (effectiveAddress s rs1 imm).toNat + 2 ≤ s.cfg.memSize →
    StoresAt (.sh rs1 rs2 imm) s (effectiveAddress s rs1 imm) 2 (s.x rs2)) ∧
  (∀ s rs1 rs2 imm, (effectiveAddress s rs1 imm).toNat + 4 ≤ s.cfg.memSize →
    StoresAt (.sw rs1 rs2 imm) s (effectiveAddress s rs1 imm) 4 (s.x rs2)) ∧
  (∀ s rs1 rs2 imm, s.cfg.memSize < (effectiveAddress s rs1 imm).toNat + 1 →
    exec (.sb rs1 rs2 imm) s = .fault (.outOfBounds (effectiveAddress s rs1 imm) 1)) ∧
  (∀ s rs1 rs2 imm, s.cfg.memSize < (effectiveAddress s rs1 imm).toNat + 2 →
    exec (.sh rs1 rs2 imm) s = .fault (.outOfBounds (effectiveAddress s rs1 imm) 2)) ∧
  (∀ s rs1 rs2 imm, s.cfg.memSize < (effectiveAddress s rs1 imm).toNat + 4 →
    exec (.sw rs1 rs2 imm) s = .fault (.outOfBounds (effectiveAddress s rs1 imm) 4)) ∧
  DecodesF3 0b0100011#7 0b000#3 (fun w => .sb (rs1Of w) (rs2Of w) (immS w)) ∧
  DecodesF3 0b0100011#7 0b001#3 (fun w => .sh (rs1Of w) (rs2Of w) (immS w)) ∧
  DecodesF3 0b0100011#7 0b010#3 (fun w => .sw (rs1Of w) (rs2Of w) (immS w))

/-- R48: a load of the same width at the address of the store before it returns what was stored, truncated and extended as the load
says, whatever registers and displacements make the address. -/
def Obligations.ALoadReturnsTheStoreBeforeIt : Prop :=
  ∀ (s t : State) (rs1 rs2 rd base : Reg) (imm disp : Word), rd ≠ 0 →
    effectiveAddress t base disp = effectiveAddress s rs1 imm →
    (exec (.sw rs1 rs2 imm) s = .next t → ∃ u, exec (.lw rd base disp) t = .next u ∧ u.x rd = s.x rs2) ∧
    (exec (.sh rs1 rs2 imm) s = .next t → ∃ u, exec (.lhu rd base disp) t = .next u ∧
      (u.x rd).toNat = (s.x rs2).toNat % 2 ^ 16) ∧
    (exec (.sb rs1 rs2 imm) s = .next t → ∃ u, exec (.lbu rd base disp) t = .next u ∧
      (u.x rd).toNat = (s.x rs2).toNat % 2 ^ 8)

/-- R51, R163: a word stored over the next instruction is the word the very next step fetches, with no fence. -/
def Obligations.AStoreIsSeenByTheNextFetch : Prop :=
  ∀ (s t : State) (rs1 rs2 : Reg) (imm : Word), s.pc.toNat % 4 = 0 → effectiveAddress s rs1 imm = s.pc + 4 →
    exec (.sw rs1 rs2 imm) s = .next t → fetch t = .ok (s.x rs2)

/-! ## Control transfer -/

/-- R118, R119. -/
def Obligations.EqualityBranches : Prop :=
  Branches .beq (fun a b => a = b) ∧ Branches .bne (fun a b => a ≠ b) ∧
  DecodesF3 0b1100011#7 0b000#3 (fun w => .beq (rs1Of w) (rs2Of w) (immB w)) ∧
  DecodesF3 0b1100011#7 0b001#3 (fun w => .bne (rs1Of w) (rs2Of w) (immB w))

/-- R120, R121: the comparison is two's complement. -/
def Obligations.SignedBranches : Prop :=
  Branches .blt (fun a b => a.toInt < b.toInt) ∧ Branches .bge (fun a b => b.toInt ≤ a.toInt) ∧
  DecodesF3 0b1100011#7 0b100#3 (fun w => .blt (rs1Of w) (rs2Of w) (immB w)) ∧
  DecodesF3 0b1100011#7 0b101#3 (fun w => .bge (rs1Of w) (rs2Of w) (immB w))

/-- R122, R123: the comparison is unsigned. -/
def Obligations.UnsignedBranches : Prop :=
  Branches .bltu (fun a b => a.toNat < b.toNat) ∧ Branches .bgeu (fun a b => b.toNat ≤ a.toNat) ∧
  DecodesF3 0b1100011#7 0b110#3 (fun w => .bltu (rs1Of w) (rs2Of w) (immB w)) ∧
  DecodesF3 0b1100011#7 0b111#3 (fun w => .bgeu (rs1Of w) (rs2Of w) (immB w))

/-- R124: JAL goes to `pc + imm` and links `pc + 4`, or raises `MisalignedPC` with nothing written. -/
def Obligations.JalJumpsAndLinks : Prop :=
  (∀ s rd imm, (s.pc + imm).toNat % 4 = 0 → JumpsTo (.jal rd imm) rd s (s.pc + imm)) ∧
  (∀ s rd imm, (s.pc + imm).toNat % 4 ≠ 0 → exec (.jal rd imm) s = .fault (.misalignedPC (s.pc + imm))) ∧
  (∀ m w, w.extractLsb' 0 7 = 0b1101111#7 → decode m w = .ok (.jal (rdOf w) (immJ w)))

/-- R125: JALR goes to `x[rs1] + imm` made even and links `pc + 4`; `x[rs1]` is the old value, also when it is the link register. -/
def Obligations.JalrJumpsAndLinks : Prop :=
  (∀ (s : State) (rd rs1 : Reg) (imm target : Word), target.toNat = (s.x rs1 + imm).toNat / 2 * 2 →
    (target.toNat % 4 = 0 → JumpsTo (.jalr rd rs1 imm) rd s target) ∧
    (target.toNat % 4 ≠ 0 → exec (.jalr rd rs1 imm) s = .fault (.misalignedPC target))) ∧
  DecodesF3 0b1100111#7 0b000#3 (fun w => .jalr (rdOf w) (rs1Of w) (immI w)) ∧
  (∀ m w, w.extractLsb' 0 7 = 0b1100111#7 → w.extractLsb' 12 3 ≠ 0b000#3 → ∃ r, decode m w = .error r)

/-- R117: from an aligned `pc` the only misalignment a well-formed transfer can raise is a target that is 2 modulo 4; no branch
that is not taken checks its target; and every taken transfer to an aligned target outside memory is accepted, the fetch that
follows being the one that fails. -/
def Obligations.OnlyTargetsTwoModuloFourAreMisaligned : Prop :=
  (∀ (i : Instr) (s : State) (target : Word), i.wellFormed = true → s.pc.toNat % 4 = 0 →
    exec i s = .fault (.misalignedPC target) → target.toNat % 4 = 2) ∧
  (∀ (i : Instr) (s : State), i.iType = .B → ¬ Taken i s → OnlyMovesPc i s (s.pc + 4)) ∧
  (∀ (i : Instr) (s : State) (target : Word), Taken i s → NextPcs i s target → target.toNat % 4 = 0 →
    s.cfg.memSize < target.toNat + 4 →
    ∃ t, exec i s = .next t ∧ t.pc = target ∧ step t = .fault (.outOfBounds target 4))

/-! ## FENCE -/

/-- R138: whatever its fields, FENCE changes only `pc`. -/
def Obligations.FenceOnlyMovesPc : Prop :=
  (∀ s fm pred succ rd rs1, OnlyMovesPc (.fence fm pred succ rd rs1) s (s.pc + 4)) ∧
  DecodesF3 0b0001111#7 0b000#3 (fun w =>
    .fence (w.extractLsb' 28 4) (w.extractLsb' 24 4) (w.extractLsb' 20 4) (rdOf w) (rs1Of w)) ∧
  (∀ fm pred succ rd rs1, (Instr.fence fm pred succ rd rs1).iType = .I)

/-! ## The memory contract and the host interface -/

/-- R37: with legal parameters the engine's unsigned check is the source's signed one, for every 32-bit address, and an access that
fails it raises `OutOfBounds(a, n)`; in particular the byte at `MEM_SIZE` and the byte at -1 cannot be read, and the last one can. -/
def Obligations.BoundsVerdictsAgree : Prop :=
  ∀ (c : Config) (a : Word) (w : Width), c.wf = true →
    (inBounds c a w.bytes = true ↔ a.toNat + w.bytes ≤ c.memSize) ∧
    (inBounds c a w.bytes = false ↔ a.toInt < 0 ∨ (c.memSize : Int) < a.toInt + w.bytes) ∧
    hostInBounds c a.toInt w.bytes = inBounds c a w.bytes ∧
    (∀ s : State, s.cfg = c → inBounds c a w.bytes = false → memRead s a w = .error (.outOfBounds a w.bytes) ∧
      ∀ v, memWrite s a w v = .error (.outOfBounds a w.bytes)) ∧
    (∀ s : State, s.cfg = c → localRead s c.memSize .byte = .error (.outOfBounds c.memSize 1) ∧
      (∃ e, localRead s (-1) .byte = .error e) ∧ ∃ v, localRead s ((c.memSize : Int) - 1) .byte = .ok v)

/-- R38, R40: `MemRead` gives the bytes in order, the lowest address least significant, and nothing above them; out of bounds it
raises `OutOfBounds(a, n)`. -/
def Obligations.MemReadIsLittleEndian : Prop :=
  ∀ (s : State) (a : Word) (w : Width),
    (a.toNat + w.bytes ≤ s.cfg.memSize → ∃ v, memRead s a w = .ok v ∧
      (∀ k, k < 8 * w.bytes → v.getLsbD k = (Memory.get s.mem (a.toNat + k / 8)).getLsbD (k % 8)) ∧
      (∀ k, 8 * w.bytes ≤ k → v.getLsbD k = false)) ∧
    (s.cfg.memSize < a.toNat + w.bytes → memRead s a w = .error (.outOfBounds a w.bytes))

/-- R39: `MemWrite` writes the low bytes of the value, least significant first, and no other byte; out of bounds it raises
`OutOfBounds(a, n)`. -/
def Obligations.MemWriteIsLittleEndian : Prop :=
  ∀ (s : State) (a : Word) (w : Width) (v : Word),
    (a.toNat + w.bytes ≤ s.cfg.memSize → ∃ m, memWrite s a w v = .ok m ∧
      (∀ k, k < w.bytes → ∀ b, b < 8 → (Memory.get m (a.toNat + k)).getLsbD b = v.getLsbD (8 * k + b)) ∧
      (∀ k, k < a.toNat ∨ a.toNat + w.bytes ≤ k → Memory.get m k = Memory.get s.mem k)) ∧
    (s.cfg.memSize < a.toNat + w.bytes → memWrite s a w v = .error (.outOfBounds a w.bytes))

/-- R158: `loadProgram` writes all the bytes in order, or, when any lies outside memory, none; it changes nothing but memory; and the
next fetch sees the bytes loaded. -/
def Obligations.LoadProgramWritesAllOrNothing : Prop :=
  ∀ (s : State) (bytes : List Byte) (at' : Int),
    (0 ≤ at' → at' + bytes.length ≤ s.cfg.memSize → ∃ t, loadProgram s bytes at' = .ok t ∧
      SameRegs s t ∧ t.pc = s.pc ∧ t.pcLast = s.pcLast ∧ t.instr = s.instr ∧ t.cfg = s.cfg ∧
      (∀ k (h : k < bytes.length), Memory.get t.mem (at'.toNat + k) = bytes[k]) ∧
      (∀ a, a < at'.toNat ∨ at'.toNat + bytes.length ≤ a → Memory.get t.mem a = Memory.get s.mem a)) ∧
    (at' < 0 ∨ (s.cfg.memSize : Int) < at' + bytes.length →
      loadProgram s bytes at' = .error (.outOfBounds at' bytes.length)) ∧
    (∀ (t : State) (b0 b1 b2 b3 : Byte), bytes = [b0, b1, b2, b3] → at' = s.pc.toNat → s.pc.toNat % 4 = 0 →
      loadProgram s bytes at' = .ok t → fetch t = .ok (b3 ++ b2 ++ b1 ++ b0))

/-- R159: `reset()` and `loadProgram()` commute, the failing call included. -/
def Obligations.ResetAndLoadProgramCommute : Prop :=
  ∀ (s : State) (bytes : List Byte) (at' : Int),
    (∀ t, loadProgram s bytes at' = .ok t → loadProgram (hostReset s) bytes at' = .ok (hostReset t)) ∧
    (∀ e, loadProgram s bytes at' = .error e → loadProgram (hostReset s) bytes at' = .error e)

/-- R20: the register file's `read` and `write` by index: signed values, index 0 reads 0 and discards writes, and an index outside
`[0, 31]` is `IndexOutOfRange`. -/
def Obligations.RegisterFileInterface : Prop :=
  (∀ (s : State) (r : Reg), s.readIdx (r.val : Int) = .ok (s.x r).toInt) ∧
  (∀ s : State, s.readIdx 0 = .ok 0) ∧
  (∀ (f : RegFile) (v : Word), RegFile.writeIdx f 0 v = .ok f) ∧
  (∀ (f : RegFile) (r : Reg) (v : Word), r ≠ 0 → ∃ g, RegFile.writeIdx f (r.val : Int) v = .ok g ∧
    RegFile.read g r = v ∧ ∀ k, k ≠ r → RegFile.read g k = RegFile.read f k) ∧
  (∀ (s : State) (f : RegFile) (v : Word) (i : Int), i < 0 ∨ 31 < i →
    s.readIdx i = .error (.indexOutOfRange i) ∧ RegFile.writeIdx f i v = .error (.indexOutOfRange i))

/-- R35, R38: `localRead` at a host integer gives the bytes there as a signed integer of that width, or `OutOfBounds`; at the
address of an engine read it is the sign extension of what `MemRead` gives. That the error carries a negative address as the host
gave it is the model's choice (assumption log 11; 95 W6 writes -1 as 0xFFFFFFFF). -/
def Obligations.LocalReadIsTheSignedMemRead : Prop :=
  (∀ (s : State) (a : Int) (w : Width), 0 ≤ a → a + w.bytes ≤ s.cfg.memSize →
    ∃ v : Int, localRead s a w = .ok v ∧ -(2 ^ (8 * w.bytes - 1)) ≤ v ∧ v < 2 ^ (8 * w.bytes - 1) ∧
      ∀ k, k < w.bytes → ((Memory.get s.mem (a.toNat + k)).toNat : Int) = v / 256 ^ k % 256) ∧
  (∀ (s : State) (a : Int) (w : Width), a < 0 ∨ (s.cfg.memSize : Int) < a + w.bytes →
    localRead s a w = .error (.outOfBounds a w.bytes)) ∧
  (∀ (s : State) (a v : Word) (w : Width), memRead s a w = .ok v →
    localRead s a.toNat w = .ok (sext (8 * w.bytes) v).toInt)

/-- R36: `localWrite` truncates its value to the width and writes it little-endian, or raises `OutOfBounds`. That the
error carries a negative address as the host gave it is the model's choice (assumption log 11). -/
def Obligations.LocalWriteTruncates : Prop :=
  ∀ (s : State) (a value : Int) (w : Width),
    (0 ≤ a → a + w.bytes ≤ s.cfg.memSize → ∃ m, localWrite s a w value = .ok m ∧
      (∀ k, k < w.bytes → ((Memory.get m (a.toNat + k)).toNat : Int) = value / 256 ^ k % 256) ∧
      (∀ k, k < a.toNat ∨ a.toNat + w.bytes ≤ k → Memory.get m k = Memory.get s.mem k)) ∧
    (a < 0 ∨ (s.cfg.memSize : Int) < a + w.bytes → localWrite s a w value = .error (.outOfBounds a w.bytes))

/-- R35 (92 D25): a range read gives the bytes of the range in order, and fails when any of them lies outside memory; an empty range
has no such byte, wherever it stands. That the error names a byte of the range that is outside, and carries a negative address as
the host gave it, is the model's choice (assumption log 11). -/
def Obligations.RangeReadIsOneByteReads : Prop :=
  ∀ (s : State) (a : Int) (n : Nat),
    (0 ≤ a → a + n ≤ s.cfg.memSize → ∃ bs, readRange s a n = .ok bs ∧ bs.length = n ∧
      ∀ k (h : k < bs.length), bs[k] = Memory.get s.mem (a.toNat + k)) ∧
    (n = 0 → readRange s a n = .ok []) ∧
    (n ≠ 0 → a < 0 ∨ (s.cfg.memSize : Int) < a + n → ∃ b, readRange s a n = .error (.outOfBounds b 1) ∧
      a ≤ b ∧ b < a + n ∧ (b < 0 ∨ (s.cfg.memSize : Int) ≤ b))
end

