-- ==== Sys2Proof/Laws/Encoding.lean ====
section
/-! SUPPORT. The bits of an encoded word, the fields of an encoded word (30_encoding.md R54 to R60), and that a well-formed
immediate survives its encoding (R61 to R65). -/

namespace Sys2Proof

@[simp] theorem toFin_regBits (r : Reg) : (regBits r).toFin = r := rfl

theorem encodeR_getLsbD (funct7 : BitVec 7) (rs2 rs1 : Reg) (funct3 : BitVec 3) (rd : Reg) (opcode : BitVec 7) (k : Nat) :
    (encodeR funct7 rs2 rs1 funct3 rd opcode).getLsbD k =
      (if k < 7 then opcode.getLsbD k else if k - 7 < 5 then (regBits rd).getLsbD (k - 7) else if k - 7 - 5 < 3 then funct3.getLsbD (k - 7 - 5) else if k - 7 - 5 - 3 < 5 then (regBits rs1).getLsbD (k - 7 - 5 - 3) else if k - 7 - 5 - 3 - 5 < 5 then (regBits rs2).getLsbD (k - 7 - 5 - 3 - 5) else funct7.getLsbD (k - 7 - 5 - 3 - 5 - 5)) := by
  change BitVec.getLsbD (w := 7 + 5 + 5 + 3 + 5 + 7) (funct7 ++ regBits rs2 ++ regBits rs1 ++ funct3 ++ regBits rd ++ opcode) k = _
  simp only [BitVec.getLsbD_append]

@[simp] theorem opcodeOf_encodeR (funct7 : BitVec 7) (rs2 rs1 : Reg) (funct3 : BitVec 3) (rd : Reg) (opcode : BitVec 7) :
    opcodeOf (encodeR funct7 rs2 rs1 funct3 rd opcode) = opcode := by
  ext i hi
  simp only [opcodeOf, BitVec.getElem_extractLsb', encodeR_getLsbD]
  interval_cases i <;> simp

@[simp] theorem funct3Of_encodeR (funct7 : BitVec 7) (rs2 rs1 : Reg) (funct3 : BitVec 3) (rd : Reg) (opcode : BitVec 7) :
    funct3Of (encodeR funct7 rs2 rs1 funct3 rd opcode) = funct3 := by
  ext i hi
  simp only [funct3Of, BitVec.getElem_extractLsb', encodeR_getLsbD]
  interval_cases i <;> simp

@[simp] theorem funct7Of_encodeR (funct7 : BitVec 7) (rs2 rs1 : Reg) (funct3 : BitVec 3) (rd : Reg) (opcode : BitVec 7) :
    funct7Of (encodeR funct7 rs2 rs1 funct3 rd opcode) = funct7 := by
  ext i hi
  simp only [funct7Of, BitVec.getElem_extractLsb', encodeR_getLsbD]
  interval_cases i <;> simp

@[simp] theorem rdOf_encodeR (funct7 : BitVec 7) (rs2 rs1 : Reg) (funct3 : BitVec 3) (rd : Reg) (opcode : BitVec 7) :
    rdOf (encodeR funct7 rs2 rs1 funct3 rd opcode) = rd := by
  have h : (encodeR funct7 rs2 rs1 funct3 rd opcode).extractLsb' 7 5 = regBits rd := by
    ext i hi
    simp only [BitVec.getElem_extractLsb', encodeR_getLsbD]
    interval_cases i <;> simp
  simp [rdOf, h]

@[simp] theorem rs1Of_encodeR (funct7 : BitVec 7) (rs2 rs1 : Reg) (funct3 : BitVec 3) (rd : Reg) (opcode : BitVec 7) :
    rs1Of (encodeR funct7 rs2 rs1 funct3 rd opcode) = rs1 := by
  have h : (encodeR funct7 rs2 rs1 funct3 rd opcode).extractLsb' 15 5 = regBits rs1 := by
    ext i hi
    simp only [BitVec.getElem_extractLsb', encodeR_getLsbD]
    interval_cases i <;> simp
  simp [rs1Of, h]

@[simp] theorem rs2Of_encodeR (funct7 : BitVec 7) (rs2 rs1 : Reg) (funct3 : BitVec 3) (rd : Reg) (opcode : BitVec 7) :
    rs2Of (encodeR funct7 rs2 rs1 funct3 rd opcode) = rs2 := by
  have h : (encodeR funct7 rs2 rs1 funct3 rd opcode).extractLsb' 20 5 = regBits rs2 := by
    ext i hi
    simp only [BitVec.getElem_extractLsb', encodeR_getLsbD]
    interval_cases i <;> simp
  simp [rs2Of, h]

@[simp] theorem shamtOf_encodeR (funct7 : BitVec 7) (rs2 rs1 : Reg) (funct3 : BitVec 3) (rd : Reg) (opcode : BitVec 7) :
    shamtOf (encodeR funct7 rs2 rs1 funct3 rd opcode) = rs2 := by
  have h : (encodeR funct7 rs2 rs1 funct3 rd opcode).extractLsb' 20 5 = regBits rs2 := by
    ext i hi
    simp only [BitVec.getElem_extractLsb', encodeR_getLsbD]
    interval_cases i <;> simp
  simp [shamtOf, h]

theorem encodeI_getLsbD (imm : Word) (rs1 : Reg) (funct3 : BitVec 3) (rd : Reg) (opcode : BitVec 7) (k : Nat) :
    (encodeI imm rs1 funct3 rd opcode).getLsbD k =
      (if k < 7 then opcode.getLsbD k else if k - 7 < 5 then (regBits rd).getLsbD (k - 7) else if k - 7 - 5 < 3 then funct3.getLsbD (k - 7 - 5) else if k - 7 - 5 - 3 < 5 then (regBits rs1).getLsbD (k - 7 - 5 - 3) else (imm.extractLsb' 0 12).getLsbD (k - 7 - 5 - 3 - 5)) := by
  change BitVec.getLsbD (w := 12 + 5 + 3 + 5 + 7) (imm.extractLsb' 0 12 ++ regBits rs1 ++ funct3 ++ regBits rd ++ opcode) k = _
  simp only [BitVec.getLsbD_append]

@[simp] theorem opcodeOf_encodeI (imm : Word) (rs1 : Reg) (funct3 : BitVec 3) (rd : Reg) (opcode : BitVec 7) :
    opcodeOf (encodeI imm rs1 funct3 rd opcode) = opcode := by
  ext i hi
  simp only [opcodeOf, BitVec.getElem_extractLsb', encodeI_getLsbD]
  interval_cases i <;> simp

@[simp] theorem funct3Of_encodeI (imm : Word) (rs1 : Reg) (funct3 : BitVec 3) (rd : Reg) (opcode : BitVec 7) :
    funct3Of (encodeI imm rs1 funct3 rd opcode) = funct3 := by
  ext i hi
  simp only [funct3Of, BitVec.getElem_extractLsb', encodeI_getLsbD]
  interval_cases i <;> simp

@[simp] theorem rdOf_encodeI (imm : Word) (rs1 : Reg) (funct3 : BitVec 3) (rd : Reg) (opcode : BitVec 7) :
    rdOf (encodeI imm rs1 funct3 rd opcode) = rd := by
  have h : (encodeI imm rs1 funct3 rd opcode).extractLsb' 7 5 = regBits rd := by
    ext i hi
    simp only [BitVec.getElem_extractLsb', encodeI_getLsbD]
    interval_cases i <;> simp
  simp [rdOf, h]

@[simp] theorem rs1Of_encodeI (imm : Word) (rs1 : Reg) (funct3 : BitVec 3) (rd : Reg) (opcode : BitVec 7) :
    rs1Of (encodeI imm rs1 funct3 rd opcode) = rs1 := by
  have h : (encodeI imm rs1 funct3 rd opcode).extractLsb' 15 5 = regBits rs1 := by
    ext i hi
    simp only [BitVec.getElem_extractLsb', encodeI_getLsbD]
    interval_cases i <;> simp
  simp [rs1Of, h]

theorem encodeS_getLsbD (imm : Word) (rs2 rs1 : Reg) (funct3 : BitVec 3) (opcode : BitVec 7) (k : Nat) :
    (encodeS imm rs2 rs1 funct3 opcode).getLsbD k =
      (if k < 7 then opcode.getLsbD k else if k - 7 < 5 then (imm.extractLsb' 0 5).getLsbD (k - 7) else if k - 7 - 5 < 3 then funct3.getLsbD (k - 7 - 5) else if k - 7 - 5 - 3 < 5 then (regBits rs1).getLsbD (k - 7 - 5 - 3) else if k - 7 - 5 - 3 - 5 < 5 then (regBits rs2).getLsbD (k - 7 - 5 - 3 - 5) else (imm.extractLsb' 5 7).getLsbD (k - 7 - 5 - 3 - 5 - 5)) := by
  change BitVec.getLsbD (w := 7 + 5 + 5 + 3 + 5 + 7) (imm.extractLsb' 5 7 ++ regBits rs2 ++ regBits rs1 ++ funct3 ++ imm.extractLsb' 0 5 ++ opcode) k = _
  simp only [BitVec.getLsbD_append]

@[simp] theorem opcodeOf_encodeS (imm : Word) (rs2 rs1 : Reg) (funct3 : BitVec 3) (opcode : BitVec 7) :
    opcodeOf (encodeS imm rs2 rs1 funct3 opcode) = opcode := by
  ext i hi
  simp only [opcodeOf, BitVec.getElem_extractLsb', encodeS_getLsbD]
  interval_cases i <;> simp

@[simp] theorem funct3Of_encodeS (imm : Word) (rs2 rs1 : Reg) (funct3 : BitVec 3) (opcode : BitVec 7) :
    funct3Of (encodeS imm rs2 rs1 funct3 opcode) = funct3 := by
  ext i hi
  simp only [funct3Of, BitVec.getElem_extractLsb', encodeS_getLsbD]
  interval_cases i <;> simp

@[simp] theorem rs1Of_encodeS (imm : Word) (rs2 rs1 : Reg) (funct3 : BitVec 3) (opcode : BitVec 7) :
    rs1Of (encodeS imm rs2 rs1 funct3 opcode) = rs1 := by
  have h : (encodeS imm rs2 rs1 funct3 opcode).extractLsb' 15 5 = regBits rs1 := by
    ext i hi
    simp only [BitVec.getElem_extractLsb', encodeS_getLsbD]
    interval_cases i <;> simp
  simp [rs1Of, h]

@[simp] theorem rs2Of_encodeS (imm : Word) (rs2 rs1 : Reg) (funct3 : BitVec 3) (opcode : BitVec 7) :
    rs2Of (encodeS imm rs2 rs1 funct3 opcode) = rs2 := by
  have h : (encodeS imm rs2 rs1 funct3 opcode).extractLsb' 20 5 = regBits rs2 := by
    ext i hi
    simp only [BitVec.getElem_extractLsb', encodeS_getLsbD]
    interval_cases i <;> simp
  simp [rs2Of, h]

theorem encodeB_getLsbD (imm : Word) (rs2 rs1 : Reg) (funct3 : BitVec 3) (opcode : BitVec 7) (k : Nat) :
    (encodeB imm rs2 rs1 funct3 opcode).getLsbD k =
      (if k < 7 then opcode.getLsbD k else if k - 7 < 1 then (imm.extractLsb' 11 1).getLsbD (k - 7) else if k - 7 - 1 < 4 then (imm.extractLsb' 1 4).getLsbD (k - 7 - 1) else if k - 7 - 1 - 4 < 3 then funct3.getLsbD (k - 7 - 1 - 4) else if k - 7 - 1 - 4 - 3 < 5 then (regBits rs1).getLsbD (k - 7 - 1 - 4 - 3) else if k - 7 - 1 - 4 - 3 - 5 < 5 then (regBits rs2).getLsbD (k - 7 - 1 - 4 - 3 - 5) else if k - 7 - 1 - 4 - 3 - 5 - 5 < 6 then (imm.extractLsb' 5 6).getLsbD (k - 7 - 1 - 4 - 3 - 5 - 5) else (imm.extractLsb' 12 1).getLsbD (k - 7 - 1 - 4 - 3 - 5 - 5 - 6)) := by
  change BitVec.getLsbD (w := 1 + 6 + 5 + 5 + 3 + 4 + 1 + 7) (imm.extractLsb' 12 1 ++ imm.extractLsb' 5 6 ++ regBits rs2 ++ regBits rs1 ++ funct3 ++ imm.extractLsb' 1 4 ++ imm.extractLsb' 11 1 ++ opcode) k = _
  simp only [BitVec.getLsbD_append]

@[simp] theorem opcodeOf_encodeB (imm : Word) (rs2 rs1 : Reg) (funct3 : BitVec 3) (opcode : BitVec 7) :
    opcodeOf (encodeB imm rs2 rs1 funct3 opcode) = opcode := by
  ext i hi
  simp only [opcodeOf, BitVec.getElem_extractLsb', encodeB_getLsbD]
  interval_cases i <;> simp

@[simp] theorem funct3Of_encodeB (imm : Word) (rs2 rs1 : Reg) (funct3 : BitVec 3) (opcode : BitVec 7) :
    funct3Of (encodeB imm rs2 rs1 funct3 opcode) = funct3 := by
  ext i hi
  simp only [funct3Of, BitVec.getElem_extractLsb', encodeB_getLsbD]
  interval_cases i <;> simp

@[simp] theorem rs1Of_encodeB (imm : Word) (rs2 rs1 : Reg) (funct3 : BitVec 3) (opcode : BitVec 7) :
    rs1Of (encodeB imm rs2 rs1 funct3 opcode) = rs1 := by
  have h : (encodeB imm rs2 rs1 funct3 opcode).extractLsb' 15 5 = regBits rs1 := by
    ext i hi
    simp only [BitVec.getElem_extractLsb', encodeB_getLsbD]
    interval_cases i <;> simp
  simp [rs1Of, h]

@[simp] theorem rs2Of_encodeB (imm : Word) (rs2 rs1 : Reg) (funct3 : BitVec 3) (opcode : BitVec 7) :
    rs2Of (encodeB imm rs2 rs1 funct3 opcode) = rs2 := by
  have h : (encodeB imm rs2 rs1 funct3 opcode).extractLsb' 20 5 = regBits rs2 := by
    ext i hi
    simp only [BitVec.getElem_extractLsb', encodeB_getLsbD]
    interval_cases i <;> simp
  simp [rs2Of, h]

theorem encodeU_getLsbD (imm : Word) (rd : Reg) (opcode : BitVec 7) (k : Nat) :
    (encodeU imm rd opcode).getLsbD k =
      (if k < 7 then opcode.getLsbD k else if k - 7 < 5 then (regBits rd).getLsbD (k - 7) else (imm.extractLsb' 12 20).getLsbD (k - 7 - 5)) := by
  change BitVec.getLsbD (w := 20 + 5 + 7) (imm.extractLsb' 12 20 ++ regBits rd ++ opcode) k = _
  simp only [BitVec.getLsbD_append]

@[simp] theorem opcodeOf_encodeU (imm : Word) (rd : Reg) (opcode : BitVec 7) :
    opcodeOf (encodeU imm rd opcode) = opcode := by
  ext i hi
  simp only [opcodeOf, BitVec.getElem_extractLsb', encodeU_getLsbD]
  interval_cases i <;> simp

@[simp] theorem rdOf_encodeU (imm : Word) (rd : Reg) (opcode : BitVec 7) :
    rdOf (encodeU imm rd opcode) = rd := by
  have h : (encodeU imm rd opcode).extractLsb' 7 5 = regBits rd := by
    ext i hi
    simp only [BitVec.getElem_extractLsb', encodeU_getLsbD]
    interval_cases i <;> simp
  simp [rdOf, h]

theorem encodeJ_getLsbD (imm : Word) (rd : Reg) (opcode : BitVec 7) (k : Nat) :
    (encodeJ imm rd opcode).getLsbD k =
      (if k < 7 then opcode.getLsbD k else if k - 7 < 5 then (regBits rd).getLsbD (k - 7) else if k - 7 - 5 < 8 then (imm.extractLsb' 12 8).getLsbD (k - 7 - 5) else if k - 7 - 5 - 8 < 1 then (imm.extractLsb' 11 1).getLsbD (k - 7 - 5 - 8) else if k - 7 - 5 - 8 - 1 < 10 then (imm.extractLsb' 1 10).getLsbD (k - 7 - 5 - 8 - 1) else (imm.extractLsb' 20 1).getLsbD (k - 7 - 5 - 8 - 1 - 10)) := by
  change BitVec.getLsbD (w := 1 + 10 + 1 + 8 + 5 + 7) (imm.extractLsb' 20 1 ++ imm.extractLsb' 1 10 ++ imm.extractLsb' 11 1 ++ imm.extractLsb' 12 8 ++ regBits rd ++ opcode) k = _
  simp only [BitVec.getLsbD_append]

@[simp] theorem opcodeOf_encodeJ (imm : Word) (rd : Reg) (opcode : BitVec 7) :
    opcodeOf (encodeJ imm rd opcode) = opcode := by
  ext i hi
  simp only [opcodeOf, BitVec.getElem_extractLsb', encodeJ_getLsbD]
  interval_cases i <;> simp

@[simp] theorem rdOf_encodeJ (imm : Word) (rd : Reg) (opcode : BitVec 7) :
    rdOf (encodeJ imm rd opcode) = rd := by
  have h : (encodeJ imm rd opcode).extractLsb' 7 5 = regBits rd := by
    ext i hi
    simp only [BitVec.getElem_extractLsb', encodeJ_getLsbD]
    interval_cases i <;> simp
  simp [rdOf, h]

/-! ## Immediates -/

theorem signExtend_of_fits12 {imm : Word} (h : immFits12 imm = true) : (imm.extractLsb' 0 12).signExtend 32 = imm := by
  apply BitVec.eq_of_toInt_eq
  simp only [immFits12, Bool.and_eq_true, decide_eq_true_eq] at h
  rw [BitVec.toInt_signExtend]
  simp [BitVec.toInt_eq_toNat_bmod, Int.bmod] at *
  omega

theorem signExtend_of_fitsB {imm : Word} (h : immFitsB imm = true) :
    (imm.extractLsb' 0 13).signExtend 32 = imm ∧ imm[0] = false := by
  simp only [immFitsB, Bool.and_eq_true, decide_eq_true_eq, beq_iff_eq] at h
  constructor
  · apply BitVec.eq_of_toInt_eq
    rw [BitVec.toInt_signExtend]
    simp [BitVec.toInt_eq_toNat_bmod, Int.bmod] at *
    omega
  · rw [← BitVec.getLsbD_eq_getElem]; simp [BitVec.getLsbD, Nat.testBit_zero, h.2]

theorem signExtend_of_fitsJ {imm : Word} (h : immFitsJ imm = true) :
    (imm.extractLsb' 0 21).signExtend 32 = imm ∧ imm[0] = false := by
  simp only [immFitsJ, Bool.and_eq_true, decide_eq_true_eq, beq_iff_eq] at h
  constructor
  · apply BitVec.eq_of_toInt_eq
    rw [BitVec.toInt_signExtend]
    simp [BitVec.toInt_eq_toNat_bmod, Int.bmod] at *
    omega
  · rw [← BitVec.getLsbD_eq_getElem]; simp [BitVec.getLsbD, Nat.testBit_zero, h.2]

theorem immI_encodeI {imm : Word} (rs1 : Reg) (funct3 : BitVec 3) (rd : Reg) (opcode : BitVec 7) (h : immFits12 imm = true) :
    immI (encodeI imm rs1 funct3 rd opcode) = imm := by
  have hx : (encodeI imm rs1 funct3 rd opcode).extractLsb' 20 12 = imm.extractLsb' 0 12 := by
    ext i hi
    simp only [BitVec.getElem_extractLsb', encodeI_getLsbD, BitVec.getLsbD_extractLsb']
    interval_cases i <;> simp
  rw [immI, hx, signExtend_of_fits12 h]

theorem immS_encodeS {imm : Word} (rs2 rs1 : Reg) (funct3 : BitVec 3) (opcode : BitVec 7) (h : immFits12 imm = true) :
    immS (encodeS imm rs2 rs1 funct3 opcode) = imm := by
  have hx : ((encodeS imm rs2 rs1 funct3 opcode).extractLsb' 25 7 ++ (encodeS imm rs2 rs1 funct3 opcode).extractLsb' 7 5)
      = imm.extractLsb' 0 12 := by
    ext i hi
    simp only [BitVec.getElem_append, BitVec.getElem_extractLsb', encodeS_getLsbD, BitVec.getLsbD_extractLsb']
    interval_cases i <;> simp
  rw [immS, hx]
  exact signExtend_of_fits12 h

theorem immB_encodeB {imm : Word} (rs2 rs1 : Reg) (funct3 : BitVec 3) (opcode : BitVec 7) (h : immFitsB imm = true) :
    immB (encodeB imm rs2 rs1 funct3 opcode) = imm := by
  obtain ⟨hs, h0⟩ := signExtend_of_fitsB h
  have hx : ∀ w : Word, w = encodeB imm rs2 rs1 funct3 opcode →
      (w.extractLsb' 31 1 ++ w.extractLsb' 7 1 ++ w.extractLsb' 25 6 ++ w.extractLsb' 8 4 ++ 0#1) = imm.extractLsb' 0 13 := by
    rintro w rfl
    ext i hi
    simp only [BitVec.getElem_append, BitVec.getElem_extractLsb', encodeB_getLsbD, BitVec.getLsbD_extractLsb']
    interval_cases i <;> simp [h0]
  rw [immB, hx _ rfl]
  exact hs

theorem immJ_encodeJ {imm : Word} (rd : Reg) (opcode : BitVec 7) (h : immFitsJ imm = true) :
    immJ (encodeJ imm rd opcode) = imm := by
  obtain ⟨hs, h0⟩ := signExtend_of_fitsJ h
  have hx : ∀ w : Word, w = encodeJ imm rd opcode →
      (w.extractLsb' 31 1 ++ w.extractLsb' 12 8 ++ w.extractLsb' 20 1 ++ w.extractLsb' 21 10 ++ 0#1)
        = imm.extractLsb' 0 21 := by
    rintro w rfl
    ext i hi
    simp only [BitVec.getElem_append, BitVec.getElem_extractLsb', encodeJ_getLsbD, BitVec.getLsbD_extractLsb']
    interval_cases i <;> simp [h0]
  rw [immJ, hx _ rfl]
  exact hs

theorem immU_encodeU {imm : Word} (rd : Reg) (opcode : BitVec 7) (h : immFitsU imm = true) :
    immU (encodeU imm rd opcode) = imm := by
  simp only [immFitsU, beq_iff_eq] at h
  have hlow : ∀ k, k < 12 → imm.getLsbD k = false := by
    intro k hk
    have ht : (imm.toNat % 2 ^ 12).testBit k = imm.toNat.testBit k := by
      rw [Nat.testBit_mod_two_pow]; simp [hk]
    rw [BitVec.getLsbD, ← ht, show imm.toNat % 2 ^ 12 = 0 from h, Nat.zero_testBit]
  apply BitVec.eq_of_getLsbD_eq
  intro i hi
  change BitVec.getLsbD (w := 20 + 12) ((encodeU imm rd opcode).extractLsb' 12 20 ++ 0#12) i = _
  simp only [BitVec.getLsbD_append, BitVec.getLsbD_extractLsb', encodeU_getLsbD]
  by_cases hk : i < 12
  · simp [hk, hlow i hk]
  · have h1 : ¬ 12 + (i - 12) < 7 := by omega
    have h2 : ¬ 12 + (i - 12) - 7 < 5 := by omega
    have h3 : i - 12 < 20 := by omega
    have h4 : 12 + (12 + (i - 12) - 7 - 5) = i := by omega
    have h5 : 12 + (i - 12) - 7 - 5 < 20 := by omega
    simp only [hk, h1, h2, h3, h4, h5, ↓reduceIte, decide_true, Bool.true_and]

/-! ## A word is made of its fields (R54 to R65): encoding what a format reads from a word gives the word -/

theorem regBits_rdOf (w : Word) : regBits (rdOf w) = w.extractLsb' 7 5 := rfl
theorem regBits_rs1Of (w : Word) : regBits (rs1Of w) = w.extractLsb' 15 5 := rfl
theorem regBits_rs2Of (w : Word) : regBits (rs2Of w) = w.extractLsb' 20 5 := rfl

theorem encodeR_fields (w : Word) :
    encodeR (funct7Of w) (rs2Of w) (rs1Of w) (funct3Of w) (rdOf w) (opcodeOf w) = w := by
  apply BitVec.eq_of_getLsbD_eq
  intro i hi
  simp only [encodeR_getLsbD, regBits_rdOf, regBits_rs1Of, regBits_rs2Of, funct7Of, funct3Of, opcodeOf]
  interval_cases i <;> simp

theorem encodeI_fields (w : Word) : encodeI (immI w) (rs1Of w) (funct3Of w) (rdOf w) (opcodeOf w) = w := by
  apply BitVec.eq_of_getLsbD_eq
  intro i hi
  simp only [encodeI_getLsbD, regBits_rdOf, regBits_rs1Of, immI, funct3Of, opcodeOf]
  interval_cases i <;> simp [BitVec.getElem_signExtend]

theorem encodeS_fields (w : Word) : encodeS (immS w) (rs2Of w) (rs1Of w) (funct3Of w) (opcodeOf w) = w := by
  apply BitVec.eq_of_getLsbD_eq
  intro i hi
  simp only [encodeS_getLsbD, regBits_rs1Of, regBits_rs2Of, immS, funct3Of, opcodeOf, BitVec.getLsbD_extractLsb',
    BitVec.getLsbD_signExtend, BitVec.getLsbD_append]
  interval_cases i <;> simp

theorem encodeB_fields (w : Word) : encodeB (immB w) (rs2Of w) (rs1Of w) (funct3Of w) (opcodeOf w) = w := by
  apply BitVec.eq_of_getLsbD_eq
  intro i hi
  simp only [encodeB_getLsbD, regBits_rs1Of, regBits_rs2Of, immB, funct3Of, opcodeOf, BitVec.getLsbD_extractLsb',
    BitVec.getLsbD_signExtend, BitVec.getLsbD_append]
  interval_cases i <;> simp

theorem encodeU_fields (w : Word) : encodeU (immU w) (rdOf w) (opcodeOf w) = w := by
  apply BitVec.eq_of_getLsbD_eq
  intro i hi
  simp only [encodeU_getLsbD, regBits_rdOf, immU, opcodeOf, BitVec.getLsbD_extractLsb', BitVec.getLsbD_append]
  interval_cases i <;> simp

theorem encodeJ_fields (w : Word) : encodeJ (immJ w) (rdOf w) (opcodeOf w) = w := by
  apply BitVec.eq_of_getLsbD_eq
  intro i hi
  simp only [encodeJ_getLsbD, regBits_rdOf, immJ, opcodeOf, BitVec.getLsbD_extractLsb', BitVec.getLsbD_signExtend,
    BitVec.getLsbD_append]
  interval_cases i <;> simp

end Sys2Proof
end

