-- ==== Sys2Proof/Laws/State.lean ====
section
/-! SUPPORT. One lemma per field per update of the state, and the register file's laws (10_state.md R16, R17). -/

namespace Sys2Proof.Machine

@[simp] theorem State.setX_cfg (s : State) (i : Reg) (v : Word) : (s.setX i v).cfg = s.cfg := rfl
@[simp] theorem State.setX_regs (s : State) (i : Reg) (v : Word) : (s.setX i v).regs = RegFile.write s.regs i v := rfl
@[simp] theorem State.setX_pc (s : State) (i : Reg) (v : Word) : (s.setX i v).pc = s.pc := rfl
@[simp] theorem State.setX_pcLast (s : State) (i : Reg) (v : Word) : (s.setX i v).pcLast = s.pcLast := rfl
@[simp] theorem State.setX_instr (s : State) (i : Reg) (v : Word) : (s.setX i v).instr = s.instr := rfl
@[simp] theorem State.setX_mem (s : State) (i : Reg) (v : Word) : (s.setX i v).mem = s.mem := rfl

@[simp] theorem State.setMem_cfg (s : State) (m : Memory) : (s.setMem m).cfg = s.cfg := rfl
@[simp] theorem State.setMem_regs (s : State) (m : Memory) : (s.setMem m).regs = s.regs := rfl
@[simp] theorem State.setMem_pc (s : State) (m : Memory) : (s.setMem m).pc = s.pc := rfl
@[simp] theorem State.setMem_pcLast (s : State) (m : Memory) : (s.setMem m).pcLast = s.pcLast := rfl
@[simp] theorem State.setMem_instr (s : State) (m : Memory) : (s.setMem m).instr = s.instr := rfl
@[simp] theorem State.setMem_mem (s : State) (m : Memory) : (s.setMem m).mem = m := rfl

@[simp] theorem State.setPc_cfg (s : State) (a : Word) : (s.setPc a).cfg = s.cfg := rfl
@[simp] theorem State.setPc_regs (s : State) (a : Word) : (s.setPc a).regs = s.regs := rfl
@[simp] theorem State.setPc_pc (s : State) (a : Word) : (s.setPc a).pc = a := rfl
@[simp] theorem State.setPc_pcLast (s : State) (a : Word) : (s.setPc a).pcLast = s.pcLast := rfl
@[simp] theorem State.setPc_instr (s : State) (a : Word) : (s.setPc a).instr = s.instr := rfl
@[simp] theorem State.setPc_mem (s : State) (a : Word) : (s.setPc a).mem = s.mem := rfl

@[simp] theorem State.setLast_cfg (s : State) (a : Word) (i : Instr) : (s.setLast a i).cfg = s.cfg := rfl
@[simp] theorem State.setLast_regs (s : State) (a : Word) (i : Instr) : (s.setLast a i).regs = s.regs := rfl
@[simp] theorem State.setLast_pc (s : State) (a : Word) (i : Instr) : (s.setLast a i).pc = s.pc := rfl
@[simp] theorem State.setLast_pcLast (s : State) (a : Word) (i : Instr) : (s.setLast a i).pcLast = a := rfl
@[simp] theorem State.setLast_instr (s : State) (a : Word) (i : Instr) : (s.setLast a i).instr = some i := rfl
@[simp] theorem State.setLast_mem (s : State) (a : Word) (i : Instr) : (s.setLast a i).mem = s.mem := rfl

/-! ## Registers -/

/-- R16. -/
@[simp] theorem RegFile.read_zero (f : RegFile) : RegFile.read f 0 = 0 := by simp [RegFile.read]

/-- R17. -/
@[simp] theorem RegFile.write_zero (f : RegFile) (v : Word) : RegFile.write f 0 v = f := by simp [RegFile.write]

theorem RegFile.read_write (f : RegFile) (i j : Reg) (v : Word) :
    RegFile.read (RegFile.write f i v) j = if j = i ∧ i ≠ 0 then v else RegFile.read f j := by
  by_cases hi : i = 0
  · simp [hi]
  by_cases hj : j = 0
  · simp [hj, Ne.symm hi]
  have hi' : (i : Nat) ≠ 0 := fun h => hi (Fin.ext h)
  have hj' : (j : Nat) ≠ 0 := fun h => hj (Fin.ext h)
  by_cases hij : j = i
  · subst hij; simp [RegFile.read, RegFile.write, hj]
  · have hne : (i : Nat) - 1 ≠ (j : Nat) - 1 := fun h => hij (Fin.ext (by omega))
    simp [RegFile.read, RegFile.write, hi, hj, hij, Vector.getElem_set_ne, hne]

@[simp] theorem State.x_zero (s : State) : s.x 0 = 0 := by simp [State.x]
@[simp] theorem State.x_setX (s : State) (i j : Reg) (v : Word) :
    (s.setX i v).x j = if j = i ∧ i ≠ 0 then v else s.x j := by simp [State.x, RegFile.read_write]
@[simp] theorem State.x_setMem (s : State) (m : Memory) (j : Reg) : (s.setMem m).x j = s.x j := rfl
@[simp] theorem State.x_setPc (s : State) (a : Word) (j : Reg) : (s.setPc a).x j = s.x j := rfl
@[simp] theorem State.x_setLast (s : State) (a : Word) (i : Instr) (j : Reg) : (s.setLast a i).x j = s.x j := rfl

end Sys2Proof.Machine
end

