-- ==== Sys2Proof/Laws/Memory.lean ====
section
/-! SUPPORT. Memory's laws (20_memory.md R38 to R40): a read after a write, the bytes a write leaves alone, and that every write
keeps the canonical form and the byte array's bounds. -/

namespace Sys2Proof.Machine

theorem Memory.get_insert (m : Memory) (a k : Nat) (b : Byte) :
    Memory.get (Memory.insert m a b) k = if k = a then b else Memory.get m k := by
  induction m with
  | nil => by_cases h : k = a <;> simp [Memory.insert, Memory.get, h]
  | cons c m ih =>
    obtain ⟨c, v⟩ := c
    simp only [Memory.insert]
    split
    · simp [Memory.get]
    · split
      · next h => subst h; by_cases h : k = a <;> simp [Memory.get, h]
      · next h => by_cases h' : k = a
                  · subst h'; simp [Memory.get, ih, h]
                  · simp [Memory.get, ih, h']

theorem Memory.get_filter_ne (m : Memory) (a k : Nat) :
    Memory.get (m.filter (fun c => c.1 != a)) k = if k = a then unlistedByte else Memory.get m k := by
  induction m with
  | nil => simp [Memory.get]
  | cons c m ih =>
    obtain ⟨c, v⟩ := c
    by_cases h : c = a
    · subst h
      by_cases h' : k = c
      · subst h'; simpa using ih
      · simpa [Memory.get, h'] using ih
    · by_cases h' : k = a
      · subst h'; simp [h, Memory.get, ih, Ne.symm h]
      · simp [h, Memory.get, ih, h']

/-- A read after a write of one byte, in every memory. -/
@[simp] theorem Memory.get_set (m : Memory) (a k : Nat) (b : Byte) :
    Memory.get (Memory.set m a b) k = if k = a then b else Memory.get m k := by
  by_cases hb : b = unlistedByte
  · simp [Memory.set, hb, Memory.get_filter_ne]
  · simp [Memory.set, hb, Memory.get_insert]

theorem Memory.mem_insert {m : Memory} {a : Nat} {b : Byte} {c : Host.Cell} (h : c ∈ Memory.insert m a b) :
    c = (a, b) ∨ c ∈ m := by
  induction m with
  | nil => simpa [Memory.insert] using h
  | cons d m ih =>
    obtain ⟨k, v⟩ := d
    simp only [Memory.insert] at h
    split at h
    · simpa using h
    · split at h
      · rcases List.mem_cons.1 h with h | h
        · exact .inl h
        · exact .inr (List.mem_cons_of_mem _ h)
      · rcases List.mem_cons.1 h with h | h
        · exact .inr (by simp [h])
        · rcases ih h with h | h
          · exact .inl h
          · exact .inr (List.mem_cons_of_mem _ h)

theorem Memory.insert_sorted {m : Memory} (a : Nat) (b : Byte) (hm : m.Pairwise (fun c d => c.1 < d.1)) :
    (Memory.insert m a b).Pairwise (fun c d => c.1 < d.1) := by
  induction m with
  | nil => simp [Memory.insert]
  | cons d m ih =>
    obtain ⟨k, v⟩ := d
    obtain ⟨hk, hs⟩ := List.pairwise_cons.1 hm
    simp only [Memory.insert]
    split
    · next h =>
        refine List.pairwise_cons.2 ⟨fun c hc => ?_, List.pairwise_cons.2 ⟨hk, hs⟩⟩
        rcases List.mem_cons.1 hc with rfl | hc
        · exact h
        · exact h.trans (hk c hc)
    · split
      · next h => subst h; exact List.pairwise_cons.2 ⟨hk, hs⟩
      · refine List.pairwise_cons.2 ⟨fun c hc => ?_, ih hs⟩
        rcases Memory.mem_insert hc with rfl | hc
        · simp; omega
        · exact hk c hc

/-- A write of one byte keeps the canonical form. -/
theorem Memory.set_wf {m : Memory} (a : Nat) (b : Byte) (hm : Memory.wf m) : Memory.wf (Memory.set m a b) := by
  by_cases hb : b = unlistedByte
  · simp only [Memory.set, hb, ↓reduceIte]
    exact ⟨hm.1.filter _, fun c hc => hm.2 c (List.mem_filter.1 hc).1⟩
  · simp only [Memory.set, hb, ↓reduceIte]
    refine ⟨Memory.insert_sorted a b hm.1, fun c hc => ?_⟩
    rcases Memory.mem_insert hc with rfl | hc
    · exact hb
    · exact hm.2 c hc

/-- A write of one byte below the size keeps the bounds. -/
theorem Memory.set_within {n : Nat} {m : Memory} {a : Nat} (b : Byte) (ha : a < n) (hm : Memory.within n m) :
    Memory.within n (Memory.set m a b) := by
  intro c hc
  by_cases hb : b = unlistedByte
  · simp only [Memory.set, hb, ↓reduceIte] at hc
    exact hm c (List.mem_filter.1 hc).1
  · simp only [Memory.set, hb, ↓reduceIte] at hc
    rcases Memory.mem_insert hc with rfl | hc
    · exact ha
    · exact hm c hc

/-- Every write of bytes keeps the canonical form. -/
theorem Memory.writeBytes_wf {m : Memory} (a : Nat) (bs : List Byte) (hm : Memory.wf m) :
    Memory.wf (Memory.writeBytes m a bs) := by
  induction bs generalizing m a with
  | nil => exact hm
  | cons b bs ih => exact ih (a + 1) (Memory.set_wf a b hm)

/-- A write of bytes inside the size keeps the bounds. -/
theorem Memory.writeBytes_within {n : Nat} {m : Memory} {a : Nat} (bs : List Byte) (ha : a + bs.length ≤ n)
    (hm : Memory.within n m) : Memory.within n (Memory.writeBytes m a bs) := by
  induction bs generalizing m a with
  | nil => exact hm
  | cons b bs ih =>
    simp only [List.length_cons] at ha
    exact ih (by omega) (Memory.set_within b (by omega) hm)

/-- What a write of bytes leaves at every address. -/
theorem Memory.get_writeBytes (m : Memory) (a k : Nat) (bs : List Byte) :
    Memory.get (Memory.writeBytes m a bs) k = if h : a ≤ k ∧ k < a + bs.length then bs[k - a] else Memory.get m k := by
  induction bs generalizing m a with
  | nil => simp [Memory.writeBytes]
  | cons b bs ih =>
    simp only [Memory.writeBytes, ih, Memory.get_set, List.length_cons]
    by_cases h1 : k = a
    · subst h1; simp
    · by_cases h2 : a + 1 ≤ k ∧ k < a + 1 + bs.length
      · have h3 : a ≤ k ∧ k < a + (bs.length + 1) := by omega
        have h4 : k - a = (k - (a + 1)) + 1 := by omega
        simp [h2, h3, h4]
      · have h3 : ¬ (a ≤ k ∧ k < a + (bs.length + 1)) := by omega
        rw [dif_neg h2, dif_neg h3, if_neg h1]

@[simp] theorem bytesLE_length (v : Word) (w : Width) : (bytesLE v w).length = w.bytes := by cases w <;> rfl

/-- A store changes no byte outside its own (R39). -/
theorem Memory.get_writeLE_other (m : Memory) (a : Word) (w : Width) (v : Word) (k : Nat)
    (hk : k < a.toNat ∨ a.toNat + w.bytes ≤ k) : Memory.get (Memory.writeLE m a w v) k = Memory.get m k := by
  rw [Memory.writeLE, Memory.get_writeBytes, dif_neg]
  simp; omega

theorem Memory.writeLE_wf {m : Memory} (a : Word) (w : Width) (v : Word) (hm : Memory.wf m) :
    Memory.wf (Memory.writeLE m a w v) := Memory.writeBytes_wf _ _ hm

theorem Memory.writeLE_within {n : Nat} {m : Memory} {a : Word} {w : Width} (v : Word) (ha : a.toNat + w.bytes ≤ n)
    (hm : Memory.within n m) : Memory.within n (Memory.writeLE m a w v) :=
  Memory.writeBytes_within _ (by simpa using ha) hm

theorem Memory.get_of_lt_all {m : Memory} {a : Nat} (h : ∀ c ∈ m, a < c.1) : Memory.get m a = unlistedByte := by
  induction m with
  | nil => rfl
  | cons c m ih =>
    obtain ⟨k, v⟩ := c
    have hk : a < k := h (k, v) (by simp)
    simp only [Memory.get, Nat.ne_of_lt hk, ↓reduceIte]
    exact ih fun c hc => h c (List.mem_cons_of_mem _ hc)

/-- Two canonical memories that read alike are equal data. -/
theorem Memory.eq_of_get_eq {m n : Memory} (hm : Memory.wf m) (hn : Memory.wf n)
    (h : ∀ a, Memory.get m a = Memory.get n a) : m = n := by
  induction m generalizing n with
  | nil =>
    cases n with
    | nil => rfl
    | cons d n =>
      have := h d.1
      simp only [Memory.get, ↓reduceIte] at this
      exact absurd this.symm (hn.2 d (by simp))
  | cons c m ih =>
    obtain ⟨k, v⟩ := c
    obtain ⟨hm1, hm2⟩ := List.pairwise_cons.1 hm.1
    have hv : v ≠ unlistedByte := hm.2 (k, v) (by simp)
    cases n with
    | nil =>
      have := h k
      simp only [Memory.get, ↓reduceIte] at this
      exact absurd this hv
    | cons d n =>
      obtain ⟨l, u⟩ := d
      obtain ⟨hn1, hn2⟩ := List.pairwise_cons.1 hn.1
      have hu : u ≠ unlistedByte := hn.2 (l, u) (by simp)
      have hkl : k = l := by
        rcases Nat.lt_trichotomy k l with hlt | heq | hgt
        · have := h k
          rw [Memory.get_of_lt_all (m := (l, u) :: n) (by
            intro c hc; rcases List.mem_cons.1 hc with rfl | hc
            · exact hlt
            · exact hlt.trans (hn1 c hc))] at this
          simp only [Memory.get, ↓reduceIte] at this
          exact absurd this hv
        · exact heq
        · have := h l
          rw [Memory.get_of_lt_all (m := (k, v) :: m) (by
            intro c hc; rcases List.mem_cons.1 hc with rfl | hc
            · exact hgt
            · exact hgt.trans (hm1 c hc))] at this
          simp only [Memory.get, ↓reduceIte] at this
          exact absurd this.symm hu
      subst hkl
      have hvu : v = u := by simpa [Memory.get] using h k
      subst hvu
      have hmn : m = n := ih ⟨hm2, fun c hc => hm.2 c (List.mem_cons_of_mem _ hc)⟩
        ⟨hn2, fun c hc => hn.2 c (List.mem_cons_of_mem _ hc)⟩ fun a => by
          by_cases ha : a = k
          · subst ha
            rw [Memory.get_of_lt_all hm1, Memory.get_of_lt_all hn1]
          · simpa [Memory.get, ha] using h a
      rw [hmn]

end Sys2Proof.Machine
end

