-- ==== Sys2Proof/Laws/Ops.lean ====
section
/-! SUPPORT. What each shared operation can do, said once; the lemmas about `exec` and `step` at the end say what an instruction
can do, so that no later proof unfolds a meaning. -/

namespace Sys2Proof.Machine

/-! ## Memory access -/

theorem isAligned_iff (a : Word) : isAligned a = true ↔ a.toNat % 4 = 0 := by
  rw [isAligned, beq_iff_eq, ← BitVec.toNat_inj]
  simp [BitVec.extractLsb'_toNat]

theorem inBounds_iff (c : Config) (a : Word) (n : Nat) : inBounds c a n = true ↔ a.toNat + n ≤ c.memSize := by
  simp [inBounds]

theorem memRead_eq_ok {s : State} {a : Word} {w : Width} {v : Word} :
    memRead s a w = .ok v ↔ a.toNat + w.bytes ≤ s.cfg.memSize ∧ v = Memory.readLE s.mem a.toNat w := by
  unfold memRead
  split
  · next h => rw [inBounds_iff] at h; simp [h, eq_comm]
  · next h => rw [inBounds_iff] at h; simp [h]

theorem memRead_eq_error {s : State} {a : Word} {w : Width} {f : Fault} :
    memRead s a w = .error f ↔ ¬ a.toNat + w.bytes ≤ s.cfg.memSize ∧ f = .outOfBounds a w.bytes := by
  unfold memRead
  split
  · next h => rw [inBounds_iff] at h; simp [h]
  · next h => rw [inBounds_iff] at h; simp [h, eq_comm]

theorem fetch_eq_ok {s : State} {w : Word} :
    fetch s = .ok w ↔
      s.pc.toNat % 4 = 0 ∧ s.pc.toNat + 4 ≤ s.cfg.memSize ∧ w = Memory.readLE s.mem s.pc.toNat .word := by
  unfold fetch
  split
  · next h => rw [isAligned_iff] at h; rw [memRead_eq_ok]; simp [h, Width.bytes]
  · next h => rw [isAligned_iff] at h; simp [h]

theorem fetch_eq_error {s : State} {f : Fault} :
    fetch s = .error f ↔
      (s.pc.toNat % 4 ≠ 0 ∧ f = .misalignedPC s.pc) ∨
      (s.pc.toNat % 4 = 0 ∧ ¬ s.pc.toNat + 4 ≤ s.cfg.memSize ∧ f = .outOfBounds s.pc 4) := by
  unfold fetch
  split
  · next h => rw [isAligned_iff] at h; rw [memRead_eq_error]; simp [h, Width.bytes]
  · next h => rw [isAligned_iff] at h; simp [h, eq_comm]

theorem fetchDecode_eq_ok {s : State} {i : Instr} :
    fetchDecode s = .ok i ↔ ∃ w, fetch s = .ok w ∧ decode s.cfg.extM w = .ok i := by
  unfold fetchDecode decodeAt
  cases fetch s with
  | error f => simp
  | ok w => cases h : decode s.cfg.extM w <;> simp [h]

theorem fetchDecode_eq_error {s : State} {f : Fault} :
    fetchDecode s = .error f ↔
      fetch s = .error f ∨ ∃ w r, fetch s = .ok w ∧ decode s.cfg.extM w = .error r ∧ f = .decodeError s.pc w := by
  unfold fetchDecode decodeAt
  cases fetch s with
  | error g => simp
  | ok w => cases h : decode s.cfg.extM w <;> simp [h, eq_comm]

/-- A value stored reads back as its low bytes, zero-extended (R36, R38, R39). -/
theorem Memory.readLE_writeLE (m : Memory) (a : Word) (w : Width) (v : Word) :
    Memory.readLE (Memory.writeLE m a w v) a.toNat w = zext (8 * w.bytes) v := by
  cases w
  · simp [Memory.readLE, Memory.writeLE, Memory.writeBytes, bytesLE, zext, Width.bytes]
    ext i hi; simp
  · simp only [Memory.readLE, Memory.writeLE, Memory.writeBytes, bytesLE, zext, Width.bytes, Memory.get_set]
    have h : v.extractLsb' 8 8 ++ v.extractLsb' 0 8 = v.extractLsb' 0 16 := by
      ext i hi
      simp only [BitVec.getElem_append, BitVec.getElem_extractLsb']
      interval_cases i <;> simp
    simp only [Nat.left_eq_add, one_ne_zero, ↓reduceIte, h]
    ext i hi; simp
  · simp only [Memory.readLE, Memory.writeLE, Memory.writeBytes, bytesLE, zext, Width.bytes, Memory.get_set]
    have h : v.extractLsb' 24 8 ++ v.extractLsb' 16 8 ++ v.extractLsb' 8 8 ++ v.extractLsb' 0 8 = v.extractLsb' 0 32 := by
      ext i hi
      simp only [BitVec.getElem_append, BitVec.getElem_extractLsb']
      interval_cases i <;> simp
    have h2 : a.toNat ≠ a.toNat + 1 + 1 := by omega
    have h3 : a.toNat ≠ a.toNat + 1 + 1 + 1 := by omega
    simpa [h2, h3] using h

/-- Every bit of a little-endian read (R38, R40). -/
theorem Memory.readLE_getLsbD (m : Memory) (a : Nat) (w : Width) (k : Nat) : (Memory.readLE m a w).getLsbD k =
    (decide (k < 8 * w.bytes) && (Memory.get m (a + k / 8)).getLsbD (k % 8)) := by
  by_cases h : k < 8 * w.bytes
  · cases w <;> simp only [Width.bytes, Nat.reduceMul] at h
    · simp only [Memory.readLE]
      interval_cases k <;> simp [Width.bytes]
    · simp only [Memory.readLE, BitVec.getLsbD_setWidth, BitVec.getLsbD_append]
      interval_cases k <;> simp [Width.bytes]
    · change BitVec.getLsbD (w := 8 + 8 + 8 + 8)
        (Memory.get m (a + 3) ++ Memory.get m (a + 2) ++ Memory.get m (a + 1) ++ Memory.get m a) k = _
      simp only [BitVec.getLsbD_append]
      interval_cases k <;> simp [Width.bytes]
  · rw [decide_eq_false h, Bool.false_and]
    cases w <;> simp only [Width.bytes, Nat.reduceMul] at h
    · rw [Memory.readLE, BitVec.getLsbD_setWidth, BitVec.getLsbD_of_ge _ _ (by omega), Bool.and_false]
    · rw [Memory.readLE, BitVec.getLsbD_setWidth, BitVec.getLsbD_of_ge _ _ (by omega), Bool.and_false]
    · exact BitVec.getLsbD_of_ge _ _ (by omega)

/-! ## Retirement -/

section
variable (i : Instr) (e : Effect) (s : State)

@[simp] theorem retire_cfg : (retire i e s).cfg = s.cfg := by
  rcases e with ⟨_ | ⟨r, v⟩, _ | st, npc⟩ <;> rfl
@[simp] theorem retire_pc : (retire i e s).pc = e.npc := by
  rcases e with ⟨_ | ⟨r, v⟩, _ | st, npc⟩ <;> rfl
@[simp] theorem retire_pcLast : (retire i e s).pcLast = s.pc := by
  rcases e with ⟨_ | ⟨r, v⟩, _ | st, npc⟩ <;> rfl
@[simp] theorem retire_instr : (retire i e s).instr = some i := by
  rcases e with ⟨_ | ⟨r, v⟩, _ | st, npc⟩ <;> rfl

theorem retire_mem : (retire i e s).mem =
    match e.store with
    | some st => Memory.writeLE s.mem st.addr st.width st.value
    | none => s.mem := by
  rcases e with ⟨_ | ⟨r, v⟩, _ | st, npc⟩ <;> rfl

theorem retire_x (j : Reg) : (retire i e s).x j =
    match e.reg with
    | some (r, v) => if j = r ∧ r ≠ 0 then v else s.x j
    | none => s.x j := by
  rcases e with ⟨_ | ⟨r, v⟩, _ | st, npc⟩ <;> simp [retire]

end

theorem finish_eq_next {i : Instr} {e : Except Fault Effect} {s t : State} :
    finish i e s = .next t ↔ ∃ e', e = .ok e' ∧ t = retire i e' s := by
  cases e <;> simp [finish, raise, eq_comm]

theorem finish_eq_fault {i : Instr} {e : Except Fault Effect} {s : State} {f : Fault} :
    finish i e s = .fault f ↔ e = .error f := by
  cases e <;> simp [finish, raise]

theorem finish_ne_refused {i : Instr} {e : Except Fault Effect} {s : State} {r : Refusal} : finish i e s ≠ .refused r := by
  cases e <;> simp [finish, raise]

/-! ## Effects -/

theorem checkTarget_eq_ok {t u : Word} : checkTarget t = .ok u ↔ t.toNat % 4 = 0 ∧ u = t := by
  unfold checkTarget
  split
  · next h => rw [isAligned_iff] at h; simp [h, eq_comm]
  · next h => rw [isAligned_iff] at h; simp [h]

theorem loadEffect_eq_ok {s : State} {a : Word} {w : Width} {ext : Word → Word} {rd : Reg} {e : Effect} :
    loadEffect s a w ext rd = .ok e ↔ a.toNat + w.bytes ≤ s.cfg.memSize ∧
      e = { reg := some (rd, ext (Memory.readLE s.mem a.toNat w)), npc := s.pc + 4 } := by
  unfold loadEffect
  cases h : memRead s a w with
  | ok v => obtain ⟨hb, rfl⟩ := memRead_eq_ok.1 h; simp [hb, eq_comm]
  | error f => have := (memRead_eq_error.1 h).1; simp [this]

theorem loadEffect_eq_error {s : State} {a : Word} {w : Width} {ext : Word → Word} {rd : Reg} {f : Fault} :
    loadEffect s a w ext rd = .error f ↔ ¬ a.toNat + w.bytes ≤ s.cfg.memSize ∧ f = .outOfBounds a w.bytes := by
  unfold loadEffect
  cases h : memRead s a w with
  | ok v => have := (memRead_eq_ok.1 h).1; simp [this]
  | error g => obtain ⟨hb, rfl⟩ := memRead_eq_error.1 h; simp [hb, eq_comm]

theorem storeEffect_eq_ok {s : State} {a : Word} {w : Width} {v : Word} {e : Effect} :
    storeEffect s a w v = .ok e ↔ a.toNat + w.bytes ≤ s.cfg.memSize ∧
      e = { store := some ⟨a, w, v⟩, npc := s.pc + 4 } := by
  unfold storeEffect
  split
  · next h => rw [inBounds_iff] at h; simp [h, eq_comm]
  · next h => rw [inBounds_iff] at h; simp [h]

theorem storeEffect_eq_error {s : State} {a : Word} {w : Width} {v : Word} {f : Fault} :
    storeEffect s a w v = .error f ↔ ¬ a.toNat + w.bytes ≤ s.cfg.memSize ∧ f = .outOfBounds a w.bytes := by
  unfold storeEffect
  split
  · next h => rw [inBounds_iff] at h; simp [h]
  · next h => rw [inBounds_iff] at h; simp [h, eq_comm]

theorem branchEffect_eq_ok {s : State} {c : Bool} {t : Word} {e : Effect} :
    branchEffect s c t = .ok e ↔
      (c = true ∧ t.toNat % 4 = 0 ∧ e = { npc := t }) ∨ (c = false ∧ e = { npc := s.pc + 4 }) := by
  unfold branchEffect
  cases c
  · simp [eq_comm]
  · cases h : checkTarget t with
    | ok u => obtain ⟨ha, rfl⟩ := checkTarget_eq_ok.1 h; simp [ha, eq_comm]
    | error f =>
      have : ¬ t.toNat % 4 = 0 := fun ha => by rw [checkTarget_eq_ok.2 ⟨ha, rfl⟩] at h; cases h
      simp [this]

theorem branchEffect_eq_error {s : State} {c : Bool} {t : Word} {f : Fault} :
    branchEffect s c t = .error f ↔ c = true ∧ t.toNat % 4 ≠ 0 ∧ f = .misalignedPC t := by
  unfold branchEffect checkTarget
  cases c
  · simp
  · by_cases h : isAligned t = true
    · have h' := (isAligned_iff t).1 h; simp [h, h']
    · have h' := mt (isAligned_iff t).2 h; simp [h, h', eq_comm]

theorem jumpEffect_eq_ok {s : State} {rd : Reg} {t : Word} {e : Effect} :
    jumpEffect s rd t = .ok e ↔ t.toNat % 4 = 0 ∧ e = { reg := some (rd, s.pc + 4), npc := t } := by
  unfold jumpEffect
  cases h : checkTarget t with
  | ok u => obtain ⟨ha, rfl⟩ := checkTarget_eq_ok.1 h; simp [ha, eq_comm]
  | error f =>
    have : ¬ t.toNat % 4 = 0 := fun ha => by rw [checkTarget_eq_ok.2 ⟨ha, rfl⟩] at h; cases h
    simp [this]

theorem jumpEffect_eq_error {s : State} {rd : Reg} {t : Word} {f : Fault} :
    jumpEffect s rd t = .error f ↔ t.toNat % 4 ≠ 0 ∧ f = .misalignedPC t := by
  unfold jumpEffect checkTarget
  by_cases h : isAligned t = true
  · have h' := (isAligned_iff t).1 h; simp [h, h']
  · have h' := mt (isAligned_iff t).2 h; simp [h, h', eq_comm]

/-! ## Instructions and steps -/

/-- What the effect of a retired instruction can be: it writes its destination register or none, it stores inside memory and
only if it is a store, and it goes to the next instruction or, if it is a transfer, to an aligned target. -/
structure LegalEffect (i : Instr) (s : State) (e : Effect) : Prop where
  reg : e.reg.map Prod.fst = i.dest
  store : ∀ st, e.store = some st → i.iType = .S ∧ st.addr.toNat + st.width.bytes ≤ s.cfg.memSize
  npc : e.npc = s.pc + 4 ∨ e.npc.toNat % 4 = 0

theorem regEffect_legal {i : Instr} {s : State} {rd : Reg} {v : Word} {t : State} (hi : i.dest = some rd)
    (h : finish i (regEffect s rd v) s = .next t) : ∃ e, t = retire i e s ∧ LegalEffect i s e := by
  obtain ⟨e, he, rfl⟩ := finish_eq_next.1 h
  cases he
  exact ⟨_, rfl, by simp [hi], by simp, .inl rfl⟩

theorem loadEffect_legal {i : Instr} {s : State} {a : Word} {w : Width} {ext : Word → Word} {rd : Reg} {t : State}
    (hi : i.dest = some rd) (h : finish i (loadEffect s a w ext rd) s = .next t) :
    ∃ e, t = retire i e s ∧ LegalEffect i s e := by
  obtain ⟨e, he, rfl⟩ := finish_eq_next.1 h
  obtain ⟨-, rfl⟩ := loadEffect_eq_ok.1 he
  exact ⟨_, rfl, by simp [hi], by simp, .inl rfl⟩

theorem storeEffect_legal {i : Instr} {s : State} {a : Word} {w : Width} {v : Word} {t : State}
    (hi : i.dest = none) (hS : i.iType = .S) (h : finish i (storeEffect s a w v) s = .next t) :
    ∃ e, t = retire i e s ∧ LegalEffect i s e := by
  obtain ⟨e, he, rfl⟩ := finish_eq_next.1 h
  obtain ⟨hb, rfl⟩ := storeEffect_eq_ok.1 he
  exact ⟨_, rfl, by simp [hi], by simp [hS, hb], .inl rfl⟩

theorem branchEffect_legal {i : Instr} {s : State} {c : Bool} {u : Word} {t : State} (hi : i.dest = none)
    (h : finish i (branchEffect s c u) s = .next t) : ∃ e, t = retire i e s ∧ LegalEffect i s e := by
  obtain ⟨e, he, rfl⟩ := finish_eq_next.1 h
  obtain ⟨-, ha, rfl⟩ | ⟨-, rfl⟩ := branchEffect_eq_ok.1 he
  · exact ⟨_, rfl, by simp [hi], by simp, .inr ha⟩
  · exact ⟨_, rfl, by simp [hi], by simp, .inl rfl⟩

theorem jumpEffect_legal {i : Instr} {s : State} {rd : Reg} {u : Word} {t : State} (hi : i.dest = some rd)
    (h : finish i (jumpEffect s rd u) s = .next t) : ∃ e, t = retire i e s ∧ LegalEffect i s e := by
  obtain ⟨e, he, rfl⟩ := finish_eq_next.1 h
  obtain ⟨ha, rfl⟩ := jumpEffect_eq_ok.1 he
  exact ⟨_, rfl, by simp [hi], by simp, .inr ha⟩

theorem fence_legal {i : Instr} {s t : State} (hi : i.dest = none) (h : finish i (.ok { npc := s.pc + 4 }) s = .next t) :
    ∃ e, t = retire i e s ∧ LegalEffect i s e := by
  obtain ⟨e, he, rfl⟩ := finish_eq_next.1 h
  cases he
  exact ⟨_, rfl, by simp [hi], by simp, .inl rfl⟩

/-- Everything an instruction that retires can do. -/
theorem exec_eq_next {i : Instr} {s t : State} (h : exec i s = .next t) : ∃ e, t = retire i e s ∧ LegalEffect i s e := by
  cases i with
  | lui | auipc | addi | slti | sltiu | xori | ori | andi | slli | srli | srai | add | sub | sll | slt | sltu | xor
  | srl | sra | or | and | mul | mulh | mulhsu | mulhu | div | divu | rem | remu => exact regEffect_legal rfl h
  | jal | jalr => exact jumpEffect_legal rfl h
  | beq | bne | blt | bge | bltu | bgeu => exact branchEffect_legal rfl h
  | lb | lh | lw | lbu | lhu => exact loadEffect_legal rfl h
  | sb | sh | sw => exact storeEffect_legal rfl rfl h
  | fence => exact fence_legal rfl h

/-- No instruction is refused. -/
theorem exec_ne_refused (i : Instr) (s : State) (r : Refusal) : exec i s ≠ .refused r := by
  cases i <;> simp only [exec, execLui, execAuipc, execJal, execJalr, execBeq, execBne, execBlt, execBge, execBltu, execBgeu, execLb, execLh,
    execLw, execLbu, execLhu, execSb, execSh, execSw, execAddi, execSlti, execSltiu, execXori, execOri, execAndi,
    execSlli, execSrli, execSrai, execAdd, execSub, execSll, execSlt, execSltu, execXor, execSrl, execSra, execOr,
    execAnd, execFence, execMul, execMulh, execMulhsu, execMulhu, execDiv, execDivu, execRem, execRemu] <;> exact finish_ne_refused

theorem step_eq_next {s t : State} :
    step s = .next t ↔ ∃ w i, fetch s = .ok w ∧ decode s.cfg.extM w = .ok i ∧ exec i s = .next t := by
  unfold step
  cases h : fetchDecode s with
  | ok i =>
    obtain ⟨w, hw, hi⟩ := fetchDecode_eq_ok.1 h
    constructor
    · intro hn; exact ⟨w, i, hw, hi, hn⟩
    · rintro ⟨w', i', hw', hi', hn⟩
      rw [hw] at hw'; cases hw'
      rw [hi] at hi'; cases hi'
      exact hn
  | error f =>
    simp only [raise, reduceCtorEq, false_iff]
    rintro ⟨w, i, hw, hi, -⟩
    rw [fetchDecode_eq_ok.2 ⟨w, hw, hi⟩] at h
    cases h

theorem step_of_decoded {s : State} {w : Word} {i : Instr} (hw : fetch s = .ok w) (hi : decode s.cfg.extM w = .ok i) :
    step s = exec i s := by
  rw [step, fetchDecode_eq_ok.2 ⟨w, hw, hi⟩]

end Sys2Proof.Machine
end

