-- ==== Sys2Proof/Laws/PerInstr.lean ====
section
/-! SUPPORT. Family TableRow: the word of every instruction matches the fixed bits of its own row of spec/opcode_table.json
(30_encoding.md R69), whatever its operands. -/

namespace Sys2Proof

theorem encodeR_mask (funct7 : BitVec 7) (rs2 rs1 : Reg) (funct3 : BitVec 3) (rd : Reg) (opcode : BitVec 7) :
    encodeR funct7 rs2 rs1 funct3 rd opcode &&& 0xFE00707F = encodeR funct7 0 0 funct3 0 opcode := by
  apply BitVec.eq_of_getLsbD_eq
  intro i hi
  simp only [BitVec.getLsbD_and, encodeR_getLsbD]
  interval_cases i <;> simp [regBits]

theorem encodeI_mask (imm : Word) (rs1 : Reg) (funct3 : BitVec 3) (rd : Reg) (opcode : BitVec 7) :
    encodeI imm rs1 funct3 rd opcode &&& 0x0000707F = encodeI 0 0 funct3 0 opcode := by
  apply BitVec.eq_of_getLsbD_eq
  intro i hi
  simp only [BitVec.getLsbD_and, encodeI_getLsbD]
  interval_cases i <;> simp [regBits]

theorem encodeS_mask (imm : Word) (rs2 rs1 : Reg) (funct3 : BitVec 3) (opcode : BitVec 7) :
    encodeS imm rs2 rs1 funct3 opcode &&& 0x0000707F = encodeS 0 0 0 funct3 opcode := by
  apply BitVec.eq_of_getLsbD_eq
  intro i hi
  simp only [BitVec.getLsbD_and, encodeS_getLsbD]
  interval_cases i <;> simp [regBits]

theorem encodeB_mask (imm : Word) (rs2 rs1 : Reg) (funct3 : BitVec 3) (opcode : BitVec 7) :
    encodeB imm rs2 rs1 funct3 opcode &&& 0x0000707F = encodeB 0 0 0 funct3 opcode := by
  apply BitVec.eq_of_getLsbD_eq
  intro i hi
  simp only [BitVec.getLsbD_and, encodeB_getLsbD]
  interval_cases i <;> simp [regBits]

theorem encodeU_mask (imm : Word) (rd : Reg) (opcode : BitVec 7) :
    encodeU imm rd opcode &&& 0x0000007F = encodeU 0 0 opcode := by
  apply BitVec.eq_of_getLsbD_eq
  intro i hi
  simp only [BitVec.getLsbD_and, encodeU_getLsbD]
  interval_cases i <;> simp [regBits]

theorem encodeJ_mask (imm : Word) (rd : Reg) (opcode : BitVec 7) :
    encodeJ imm rd opcode &&& 0x0000007F = encodeJ 0 0 opcode := by
  apply BitVec.eq_of_getLsbD_eq
  intro i hi
  simp only [BitVec.getLsbD_and, encodeJ_getLsbD]
  interval_cases i <;> simp [regBits]

/-- FENCE's word is an I-format word whose immediate is its three fields (R138). -/
theorem encode_fence (fm pred succ : BitVec 4) (rd rs1 : Reg) :
    encode (.fence fm pred succ rd rs1)
      = encodeI ((fm ++ pred ++ succ).setWidth 32) rs1 0b000#3 rd 0b0001111#7 := by
  have h : ((fm ++ pred ++ succ).setWidth 32 : Word).extractLsb' 0 12 = fm ++ pred ++ succ := by
    ext i hi
    have h32 : i < 32 := by omega
    simp [hi, h32]
  rw [encodeI, h]
  rfl

namespace Laws.TableRow

/-- The instruction's row is in the table, with its format; its word has that row's fixed bits, and the row's condition is the
instruction's. -/
def Statement (i : Instr) : Prop :=
  ∃ r ∈ opcodeTable, r.mnemonic = i.mnemonic ∧ r.format = i.iType ∧ r.hits (encode i) = true ∧ r.needsM = i.needsM

theorem lui (rd : Reg) (imm : Word) : Statement (.lui rd imm) :=
  ⟨⟨"LUI", .U, 0x00000037, 0x0000007F, false⟩, by decide, rfl, rfl,
    by rw [OpcodeRow.hits, beq_iff_eq]; simp only [encode, encodeU_mask]; decide, rfl⟩

theorem auipc (rd : Reg) (imm : Word) : Statement (.auipc rd imm) :=
  ⟨⟨"AUIPC", .U, 0x00000017, 0x0000007F, false⟩, by decide, rfl, rfl,
    by rw [OpcodeRow.hits, beq_iff_eq]; simp only [encode, encodeU_mask]; decide, rfl⟩

theorem jal (rd : Reg) (imm : Word) : Statement (.jal rd imm) :=
  ⟨⟨"JAL", .J, 0x0000006F, 0x0000007F, false⟩, by decide, rfl, rfl,
    by rw [OpcodeRow.hits, beq_iff_eq]; simp only [encode, encodeJ_mask]; decide, rfl⟩

theorem jalr (rd : Reg) (rs1 : Reg) (imm : Word) : Statement (.jalr rd rs1 imm) :=
  ⟨⟨"JALR", .I, 0x00000067, 0x0000707F, false⟩, by decide, rfl, rfl,
    by rw [OpcodeRow.hits, beq_iff_eq]; simp only [encode, encodeI_mask]; decide, rfl⟩

theorem beq (rs1 : Reg) (rs2 : Reg) (imm : Word) : Statement (.beq rs1 rs2 imm) :=
  ⟨⟨"BEQ", .B, 0x00000063, 0x0000707F, false⟩, by decide, rfl, rfl,
    by rw [OpcodeRow.hits, beq_iff_eq]; simp only [encode, encodeB_mask]; decide, rfl⟩

theorem bne (rs1 : Reg) (rs2 : Reg) (imm : Word) : Statement (.bne rs1 rs2 imm) :=
  ⟨⟨"BNE", .B, 0x00001063, 0x0000707F, false⟩, by decide, rfl, rfl,
    by rw [OpcodeRow.hits, beq_iff_eq]; simp only [encode, encodeB_mask]; decide, rfl⟩

theorem blt (rs1 : Reg) (rs2 : Reg) (imm : Word) : Statement (.blt rs1 rs2 imm) :=
  ⟨⟨"BLT", .B, 0x00004063, 0x0000707F, false⟩, by decide, rfl, rfl,
    by rw [OpcodeRow.hits, beq_iff_eq]; simp only [encode, encodeB_mask]; decide, rfl⟩

theorem bge (rs1 : Reg) (rs2 : Reg) (imm : Word) : Statement (.bge rs1 rs2 imm) :=
  ⟨⟨"BGE", .B, 0x00005063, 0x0000707F, false⟩, by decide, rfl, rfl,
    by rw [OpcodeRow.hits, beq_iff_eq]; simp only [encode, encodeB_mask]; decide, rfl⟩

theorem bltu (rs1 : Reg) (rs2 : Reg) (imm : Word) : Statement (.bltu rs1 rs2 imm) :=
  ⟨⟨"BLTU", .B, 0x00006063, 0x0000707F, false⟩, by decide, rfl, rfl,
    by rw [OpcodeRow.hits, beq_iff_eq]; simp only [encode, encodeB_mask]; decide, rfl⟩

theorem bgeu (rs1 : Reg) (rs2 : Reg) (imm : Word) : Statement (.bgeu rs1 rs2 imm) :=
  ⟨⟨"BGEU", .B, 0x00007063, 0x0000707F, false⟩, by decide, rfl, rfl,
    by rw [OpcodeRow.hits, beq_iff_eq]; simp only [encode, encodeB_mask]; decide, rfl⟩

theorem lb (rd : Reg) (rs1 : Reg) (imm : Word) : Statement (.lb rd rs1 imm) :=
  ⟨⟨"LB", .I, 0x00000003, 0x0000707F, false⟩, by decide, rfl, rfl,
    by rw [OpcodeRow.hits, beq_iff_eq]; simp only [encode, encodeI_mask]; decide, rfl⟩

theorem lh (rd : Reg) (rs1 : Reg) (imm : Word) : Statement (.lh rd rs1 imm) :=
  ⟨⟨"LH", .I, 0x00001003, 0x0000707F, false⟩, by decide, rfl, rfl,
    by rw [OpcodeRow.hits, beq_iff_eq]; simp only [encode, encodeI_mask]; decide, rfl⟩

theorem lw (rd : Reg) (rs1 : Reg) (imm : Word) : Statement (.lw rd rs1 imm) :=
  ⟨⟨"LW", .I, 0x00002003, 0x0000707F, false⟩, by decide, rfl, rfl,
    by rw [OpcodeRow.hits, beq_iff_eq]; simp only [encode, encodeI_mask]; decide, rfl⟩

theorem lbu (rd : Reg) (rs1 : Reg) (imm : Word) : Statement (.lbu rd rs1 imm) :=
  ⟨⟨"LBU", .I, 0x00004003, 0x0000707F, false⟩, by decide, rfl, rfl,
    by rw [OpcodeRow.hits, beq_iff_eq]; simp only [encode, encodeI_mask]; decide, rfl⟩

theorem lhu (rd : Reg) (rs1 : Reg) (imm : Word) : Statement (.lhu rd rs1 imm) :=
  ⟨⟨"LHU", .I, 0x00005003, 0x0000707F, false⟩, by decide, rfl, rfl,
    by rw [OpcodeRow.hits, beq_iff_eq]; simp only [encode, encodeI_mask]; decide, rfl⟩

theorem sb (rs1 : Reg) (rs2 : Reg) (imm : Word) : Statement (.sb rs1 rs2 imm) :=
  ⟨⟨"SB", .S, 0x00000023, 0x0000707F, false⟩, by decide, rfl, rfl,
    by rw [OpcodeRow.hits, beq_iff_eq]; simp only [encode, encodeS_mask]; decide, rfl⟩

theorem sh (rs1 : Reg) (rs2 : Reg) (imm : Word) : Statement (.sh rs1 rs2 imm) :=
  ⟨⟨"SH", .S, 0x00001023, 0x0000707F, false⟩, by decide, rfl, rfl,
    by rw [OpcodeRow.hits, beq_iff_eq]; simp only [encode, encodeS_mask]; decide, rfl⟩

theorem sw (rs1 : Reg) (rs2 : Reg) (imm : Word) : Statement (.sw rs1 rs2 imm) :=
  ⟨⟨"SW", .S, 0x00002023, 0x0000707F, false⟩, by decide, rfl, rfl,
    by rw [OpcodeRow.hits, beq_iff_eq]; simp only [encode, encodeS_mask]; decide, rfl⟩

theorem addi (rd : Reg) (rs1 : Reg) (imm : Word) : Statement (.addi rd rs1 imm) :=
  ⟨⟨"ADDI", .I, 0x00000013, 0x0000707F, false⟩, by decide, rfl, rfl,
    by rw [OpcodeRow.hits, beq_iff_eq]; simp only [encode, encodeI_mask]; decide, rfl⟩

theorem slti (rd : Reg) (rs1 : Reg) (imm : Word) : Statement (.slti rd rs1 imm) :=
  ⟨⟨"SLTI", .I, 0x00002013, 0x0000707F, false⟩, by decide, rfl, rfl,
    by rw [OpcodeRow.hits, beq_iff_eq]; simp only [encode, encodeI_mask]; decide, rfl⟩

theorem sltiu (rd : Reg) (rs1 : Reg) (imm : Word) : Statement (.sltiu rd rs1 imm) :=
  ⟨⟨"SLTIU", .I, 0x00003013, 0x0000707F, false⟩, by decide, rfl, rfl,
    by rw [OpcodeRow.hits, beq_iff_eq]; simp only [encode, encodeI_mask]; decide, rfl⟩

theorem xori (rd : Reg) (rs1 : Reg) (imm : Word) : Statement (.xori rd rs1 imm) :=
  ⟨⟨"XORI", .I, 0x00004013, 0x0000707F, false⟩, by decide, rfl, rfl,
    by rw [OpcodeRow.hits, beq_iff_eq]; simp only [encode, encodeI_mask]; decide, rfl⟩

theorem ori (rd : Reg) (rs1 : Reg) (imm : Word) : Statement (.ori rd rs1 imm) :=
  ⟨⟨"ORI", .I, 0x00006013, 0x0000707F, false⟩, by decide, rfl, rfl,
    by rw [OpcodeRow.hits, beq_iff_eq]; simp only [encode, encodeI_mask]; decide, rfl⟩

theorem andi (rd : Reg) (rs1 : Reg) (imm : Word) : Statement (.andi rd rs1 imm) :=
  ⟨⟨"ANDI", .I, 0x00007013, 0x0000707F, false⟩, by decide, rfl, rfl,
    by rw [OpcodeRow.hits, beq_iff_eq]; simp only [encode, encodeI_mask]; decide, rfl⟩

theorem slli (rd : Reg) (rs1 : Reg) (shamt : Shamt) : Statement (.slli rd rs1 shamt) :=
  ⟨⟨"SLLI", .I, 0x00001013, 0xFE00707F, false⟩, by decide, rfl, rfl,
    by rw [OpcodeRow.hits, beq_iff_eq]; simp only [encode, encodeR_mask]; decide, rfl⟩

theorem srli (rd : Reg) (rs1 : Reg) (shamt : Shamt) : Statement (.srli rd rs1 shamt) :=
  ⟨⟨"SRLI", .I, 0x00005013, 0xFE00707F, false⟩, by decide, rfl, rfl,
    by rw [OpcodeRow.hits, beq_iff_eq]; simp only [encode, encodeR_mask]; decide, rfl⟩

theorem srai (rd : Reg) (rs1 : Reg) (shamt : Shamt) : Statement (.srai rd rs1 shamt) :=
  ⟨⟨"SRAI", .I, 0x40005013, 0xFE00707F, false⟩, by decide, rfl, rfl,
    by rw [OpcodeRow.hits, beq_iff_eq]; simp only [encode, encodeR_mask]; decide, rfl⟩

theorem add (rd : Reg) (rs1 : Reg) (rs2 : Reg) : Statement (.add rd rs1 rs2) :=
  ⟨⟨"ADD", .R, 0x00000033, 0xFE00707F, false⟩, by decide, rfl, rfl,
    by rw [OpcodeRow.hits, beq_iff_eq]; simp only [encode, encodeR_mask]; decide, rfl⟩

theorem sub (rd : Reg) (rs1 : Reg) (rs2 : Reg) : Statement (.sub rd rs1 rs2) :=
  ⟨⟨"SUB", .R, 0x40000033, 0xFE00707F, false⟩, by decide, rfl, rfl,
    by rw [OpcodeRow.hits, beq_iff_eq]; simp only [encode, encodeR_mask]; decide, rfl⟩

theorem sll (rd : Reg) (rs1 : Reg) (rs2 : Reg) : Statement (.sll rd rs1 rs2) :=
  ⟨⟨"SLL", .R, 0x00001033, 0xFE00707F, false⟩, by decide, rfl, rfl,
    by rw [OpcodeRow.hits, beq_iff_eq]; simp only [encode, encodeR_mask]; decide, rfl⟩

theorem slt (rd : Reg) (rs1 : Reg) (rs2 : Reg) : Statement (.slt rd rs1 rs2) :=
  ⟨⟨"SLT", .R, 0x00002033, 0xFE00707F, false⟩, by decide, rfl, rfl,
    by rw [OpcodeRow.hits, beq_iff_eq]; simp only [encode, encodeR_mask]; decide, rfl⟩

theorem sltu (rd : Reg) (rs1 : Reg) (rs2 : Reg) : Statement (.sltu rd rs1 rs2) :=
  ⟨⟨"SLTU", .R, 0x00003033, 0xFE00707F, false⟩, by decide, rfl, rfl,
    by rw [OpcodeRow.hits, beq_iff_eq]; simp only [encode, encodeR_mask]; decide, rfl⟩

theorem xor (rd : Reg) (rs1 : Reg) (rs2 : Reg) : Statement (.xor rd rs1 rs2) :=
  ⟨⟨"XOR", .R, 0x00004033, 0xFE00707F, false⟩, by decide, rfl, rfl,
    by rw [OpcodeRow.hits, beq_iff_eq]; simp only [encode, encodeR_mask]; decide, rfl⟩

theorem srl (rd : Reg) (rs1 : Reg) (rs2 : Reg) : Statement (.srl rd rs1 rs2) :=
  ⟨⟨"SRL", .R, 0x00005033, 0xFE00707F, false⟩, by decide, rfl, rfl,
    by rw [OpcodeRow.hits, beq_iff_eq]; simp only [encode, encodeR_mask]; decide, rfl⟩

theorem sra (rd : Reg) (rs1 : Reg) (rs2 : Reg) : Statement (.sra rd rs1 rs2) :=
  ⟨⟨"SRA", .R, 0x40005033, 0xFE00707F, false⟩, by decide, rfl, rfl,
    by rw [OpcodeRow.hits, beq_iff_eq]; simp only [encode, encodeR_mask]; decide, rfl⟩

theorem or (rd : Reg) (rs1 : Reg) (rs2 : Reg) : Statement (.or rd rs1 rs2) :=
  ⟨⟨"OR", .R, 0x00006033, 0xFE00707F, false⟩, by decide, rfl, rfl,
    by rw [OpcodeRow.hits, beq_iff_eq]; simp only [encode, encodeR_mask]; decide, rfl⟩

theorem and (rd : Reg) (rs1 : Reg) (rs2 : Reg) : Statement (.and rd rs1 rs2) :=
  ⟨⟨"AND", .R, 0x00007033, 0xFE00707F, false⟩, by decide, rfl, rfl,
    by rw [OpcodeRow.hits, beq_iff_eq]; simp only [encode, encodeR_mask]; decide, rfl⟩

theorem fence (fm : BitVec 4) (pred : BitVec 4) (succ : BitVec 4) (rd : Reg) (rs1 : Reg) : Statement (.fence fm pred succ rd rs1) :=
  ⟨⟨"FENCE", .I, 0x0000000F, 0x0000707F, false⟩, by decide, rfl, rfl,
    by rw [OpcodeRow.hits, beq_iff_eq]; simp only [encode_fence, encodeI_mask]; decide, rfl⟩

theorem mul (rd : Reg) (rs1 : Reg) (rs2 : Reg) : Statement (.mul rd rs1 rs2) :=
  ⟨⟨"MUL", .R, 0x02000033, 0xFE00707F, true⟩, by decide, rfl, rfl,
    by rw [OpcodeRow.hits, beq_iff_eq]; simp only [encode, encodeR_mask]; decide, rfl⟩

theorem mulh (rd : Reg) (rs1 : Reg) (rs2 : Reg) : Statement (.mulh rd rs1 rs2) :=
  ⟨⟨"MULH", .R, 0x02001033, 0xFE00707F, true⟩, by decide, rfl, rfl,
    by rw [OpcodeRow.hits, beq_iff_eq]; simp only [encode, encodeR_mask]; decide, rfl⟩

theorem mulhsu (rd : Reg) (rs1 : Reg) (rs2 : Reg) : Statement (.mulhsu rd rs1 rs2) :=
  ⟨⟨"MULHSU", .R, 0x02002033, 0xFE00707F, true⟩, by decide, rfl, rfl,
    by rw [OpcodeRow.hits, beq_iff_eq]; simp only [encode, encodeR_mask]; decide, rfl⟩

theorem mulhu (rd : Reg) (rs1 : Reg) (rs2 : Reg) : Statement (.mulhu rd rs1 rs2) :=
  ⟨⟨"MULHU", .R, 0x02003033, 0xFE00707F, true⟩, by decide, rfl, rfl,
    by rw [OpcodeRow.hits, beq_iff_eq]; simp only [encode, encodeR_mask]; decide, rfl⟩

theorem div (rd : Reg) (rs1 : Reg) (rs2 : Reg) : Statement (.div rd rs1 rs2) :=
  ⟨⟨"DIV", .R, 0x02004033, 0xFE00707F, true⟩, by decide, rfl, rfl,
    by rw [OpcodeRow.hits, beq_iff_eq]; simp only [encode, encodeR_mask]; decide, rfl⟩

theorem divu (rd : Reg) (rs1 : Reg) (rs2 : Reg) : Statement (.divu rd rs1 rs2) :=
  ⟨⟨"DIVU", .R, 0x02005033, 0xFE00707F, true⟩, by decide, rfl, rfl,
    by rw [OpcodeRow.hits, beq_iff_eq]; simp only [encode, encodeR_mask]; decide, rfl⟩

theorem rem (rd : Reg) (rs1 : Reg) (rs2 : Reg) : Statement (.rem rd rs1 rs2) :=
  ⟨⟨"REM", .R, 0x02006033, 0xFE00707F, true⟩, by decide, rfl, rfl,
    by rw [OpcodeRow.hits, beq_iff_eq]; simp only [encode, encodeR_mask]; decide, rfl⟩

theorem remu (rd : Reg) (rs1 : Reg) (rs2 : Reg) : Statement (.remu rd rs1 rs2) :=
  ⟨⟨"REMU", .R, 0x02007033, 0xFE00707F, true⟩, by decide, rfl, rfl,
    by rw [OpcodeRow.hits, beq_iff_eq]; simp only [encode, encodeR_mask]; decide, rfl⟩

end Laws.TableRow

end Sys2Proof
end

