-- ==== Sys2Proof/Tests/Slice0.lean ====
section
/-! SUPPORT. The model's own tests: expected results from 95_test_vectors.md or worked out by hand from the rules cited; and, for
every statement with hypotheses, a theorem `witness_…` of a concrete case that meets them. -/

namespace Sys2Proof.Tests

open Sys2Proof.Machine

/-! ## Well-formedness: an ill-formed term for each check -/

theorem test_wf_imm12_above : (Instr.addi 10 11 2048).wellFormed = false := by decide
theorem test_wf_imm12_below : (Instr.lw 10 11 (-2049)).wellFormed = false := by decide
theorem test_wf_imm12_store : (Instr.sw 10 11 2048).wellFormed = false := by decide
theorem test_wf_imm12_jalr : (Instr.jalr 1 10 0xFFFFF000).wellFormed = false := by decide
theorem test_wf_branch_odd : (Instr.beq 10 11 5).wellFormed = false := by decide
theorem test_wf_branch_above : (Instr.bgeu 10 11 4096).wellFormed = false := by decide
theorem test_wf_branch_below : (Instr.bne 10 11 (-4098)).wellFormed = false := by decide
theorem test_wf_upper_low_bits : (Instr.lui 10 0x12345001).wellFormed = false := by decide
theorem test_wf_jal_odd : (Instr.jal 1 3).wellFormed = false := by decide
theorem test_wf_jal_above : (Instr.jal 1 1048576).wellFormed = false := by decide
theorem test_wf_jal_below : (Instr.jal 1 (-1048578)).wellFormed = false := by decide
theorem test_wf_needs_ext_m : (Instr.div 10 11 12).available false = false := by decide

/-- The ends of every range are well formed (R61 to R65). -/
theorem test_wf_range_ends :
    (Instr.addi 10 11 2047).wellFormed = true ∧ (Instr.sb 10 11 (-2048)).wellFormed = true ∧
    (Instr.beq 10 11 4094).wellFormed = true ∧ (Instr.blt 10 11 (-4096)).wellFormed = true ∧
    (Instr.jal 0 1048574).wellFormed = true ∧ (Instr.jal 0 (-1048576)).wellFormed = true ∧
    (Instr.auipc 0 0xFFFFF000).wellFormed = true := by decide

/-! ## Decoding: every constructor, its word written out field by field from R55 to R60, R66, R69 -/

/-- R59, R60, R64, R65: `imm_U` 0xABCDE; `imm_J` with bit 20 set, [19:12] 10100101, [11] 0, [10:1] 1100110011. -/
theorem test_decode_upper_and_jal :
    decode true (0b10101011110011011110#20 ++ 0b01010#5 ++ 0b0110111#7) = .ok (.lui 10 0xABCDE000) ∧
    decode true (0b10101011110011011110#20 ++ 0b01010#5 ++ 0b0010111#7) = .ok (.auipc 10 0xABCDE000) ∧
    decode true (0b1#1 ++ 0b1100110011#10 ++ 0b0#1 ++ 0b10100101#8 ++ 0b00001#5 ++ 0b1101111#7) = .ok (.jal 1 0xFFFA5666) := by
  decide

/-- R56, R58, R61, R63: `imm_I` 0x7A5; `imm_B` with [12] 0, [11] 1, [10:5] 010101, [4:1] 0110, which is 0xAAC. -/
theorem test_decode_control :
    decode true (0b011110100101#12 ++ 0b01011#5 ++ 0b000#3 ++ 0b00001#5 ++ 0b1100111#7) = .ok (.jalr 1 11 0x7A5) ∧
    decode true (0b0#1 ++ 0b010101#6 ++ 0b01011#5 ++ 0b01010#5 ++ 0b000#3 ++ 0b0110#4 ++ 0b1#1 ++ 0b1100011#7) = .ok (.beq 10 11 0xAAC) ∧
    decode true (0b0#1 ++ 0b010101#6 ++ 0b01011#5 ++ 0b01010#5 ++ 0b001#3 ++ 0b0110#4 ++ 0b1#1 ++ 0b1100011#7) = .ok (.bne 10 11 0xAAC) ∧
    decode true (0b0#1 ++ 0b010101#6 ++ 0b01011#5 ++ 0b01010#5 ++ 0b100#3 ++ 0b0110#4 ++ 0b1#1 ++ 0b1100011#7) = .ok (.blt 10 11 0xAAC) ∧
    decode true (0b0#1 ++ 0b010101#6 ++ 0b01011#5 ++ 0b01010#5 ++ 0b101#3 ++ 0b0110#4 ++ 0b1#1 ++ 0b1100011#7) = .ok (.bge 10 11 0xAAC) ∧
    decode true (0b0#1 ++ 0b010101#6 ++ 0b01011#5 ++ 0b01010#5 ++ 0b110#3 ++ 0b0110#4 ++ 0b1#1 ++ 0b1100011#7) = .ok (.bltu 10 11 0xAAC) ∧
    decode true (0b0#1 ++ 0b010101#6 ++ 0b01011#5 ++ 0b01010#5 ++ 0b111#3 ++ 0b0110#4 ++ 0b1#1 ++ 0b1100011#7) = .ok (.bgeu 10 11 0xAAC) := by
  decide

/-- R56, R57, R61, R62: `imm_I` 0x7A5; `imm_S` with [11:5] 1010101, [4:0] 10011, which is 0xFFFFFAB3. -/
theorem test_decode_loads_and_stores :
    decode true (0b011110100101#12 ++ 0b01011#5 ++ 0b000#3 ++ 0b01010#5 ++ 0b0000011#7) = .ok (.lb 10 11 0x7A5) ∧
    decode true (0b011110100101#12 ++ 0b01011#5 ++ 0b001#3 ++ 0b01010#5 ++ 0b0000011#7) = .ok (.lh 10 11 0x7A5) ∧
    decode true (0b011110100101#12 ++ 0b01011#5 ++ 0b010#3 ++ 0b01010#5 ++ 0b0000011#7) = .ok (.lw 10 11 0x7A5) ∧
    decode true (0b011110100101#12 ++ 0b01011#5 ++ 0b100#3 ++ 0b01010#5 ++ 0b0000011#7) = .ok (.lbu 10 11 0x7A5) ∧
    decode true (0b011110100101#12 ++ 0b01011#5 ++ 0b101#3 ++ 0b01010#5 ++ 0b0000011#7) = .ok (.lhu 10 11 0x7A5) ∧
    decode true (0b1010101#7 ++ 0b01100#5 ++ 0b01011#5 ++ 0b000#3 ++ 0b10011#5 ++ 0b0100011#7) = .ok (.sb 11 12 0xFFFFFAB3) ∧
    decode true (0b1010101#7 ++ 0b01100#5 ++ 0b01011#5 ++ 0b001#3 ++ 0b10011#5 ++ 0b0100011#7) = .ok (.sh 11 12 0xFFFFFAB3) ∧
    decode true (0b1010101#7 ++ 0b01100#5 ++ 0b01011#5 ++ 0b010#3 ++ 0b10011#5 ++ 0b0100011#7) = .ok (.sw 11 12 0xFFFFFAB3) := by
  decide

/-- R56, R61, R66. -/
theorem test_decode_op_imm :
    decode true (0b100000000001#12 ++ 0b01011#5 ++ 0b000#3 ++ 0b01010#5 ++ 0b0010011#7) = .ok (.addi 10 11 0xFFFFF801) ∧
    decode true (0b100000000001#12 ++ 0b01011#5 ++ 0b010#3 ++ 0b01010#5 ++ 0b0010011#7) = .ok (.slti 10 11 0xFFFFF801) ∧
    decode true (0b100000000001#12 ++ 0b01011#5 ++ 0b011#3 ++ 0b01010#5 ++ 0b0010011#7) = .ok (.sltiu 10 11 0xFFFFF801) ∧
    decode true (0b100000000001#12 ++ 0b01011#5 ++ 0b100#3 ++ 0b01010#5 ++ 0b0010011#7) = .ok (.xori 10 11 0xFFFFF801) ∧
    decode true (0b100000000001#12 ++ 0b01011#5 ++ 0b110#3 ++ 0b01010#5 ++ 0b0010011#7) = .ok (.ori 10 11 0xFFFFF801) ∧
    decode true (0b100000000001#12 ++ 0b01011#5 ++ 0b111#3 ++ 0b01010#5 ++ 0b0010011#7) = .ok (.andi 10 11 0xFFFFF801) ∧
    decode true (0b0000000#7 ++ 0b11101#5 ++ 0b01011#5 ++ 0b001#3 ++ 0b01010#5 ++ 0b0010011#7) = .ok (.slli 10 11 29) ∧
    decode true (0b0000000#7 ++ 0b11101#5 ++ 0b01011#5 ++ 0b101#3 ++ 0b01010#5 ++ 0b0010011#7) = .ok (.srli 10 11 29) ∧
    decode true (0b0100000#7 ++ 0b11101#5 ++ 0b01011#5 ++ 0b101#3 ++ 0b01010#5 ++ 0b0010011#7) = .ok (.srai 10 11 29) := by
  decide

/-- R55. -/
theorem test_decode_op :
    decode true (0b0000000#7 ++ 0b01100#5 ++ 0b01011#5 ++ 0b000#3 ++ 0b01010#5 ++ 0b0110011#7) = .ok (.add 10 11 12) ∧
    decode true (0b0100000#7 ++ 0b01100#5 ++ 0b01011#5 ++ 0b000#3 ++ 0b01010#5 ++ 0b0110011#7) = .ok (.sub 10 11 12) ∧
    decode true (0b0000000#7 ++ 0b01100#5 ++ 0b01011#5 ++ 0b001#3 ++ 0b01010#5 ++ 0b0110011#7) = .ok (.sll 10 11 12) ∧
    decode true (0b0000000#7 ++ 0b01100#5 ++ 0b01011#5 ++ 0b010#3 ++ 0b01010#5 ++ 0b0110011#7) = .ok (.slt 10 11 12) ∧
    decode true (0b0000000#7 ++ 0b01100#5 ++ 0b01011#5 ++ 0b011#3 ++ 0b01010#5 ++ 0b0110011#7) = .ok (.sltu 10 11 12) ∧
    decode true (0b0000000#7 ++ 0b01100#5 ++ 0b01011#5 ++ 0b100#3 ++ 0b01010#5 ++ 0b0110011#7) = .ok (.xor 10 11 12) ∧
    decode true (0b0000000#7 ++ 0b01100#5 ++ 0b01011#5 ++ 0b101#3 ++ 0b01010#5 ++ 0b0110011#7) = .ok (.srl 10 11 12) ∧
    decode true (0b0100000#7 ++ 0b01100#5 ++ 0b01011#5 ++ 0b101#3 ++ 0b01010#5 ++ 0b0110011#7) = .ok (.sra 10 11 12) ∧
    decode true (0b0000000#7 ++ 0b01100#5 ++ 0b01011#5 ++ 0b110#3 ++ 0b01010#5 ++ 0b0110011#7) = .ok (.or 10 11 12) ∧
    decode true (0b0000000#7 ++ 0b01100#5 ++ 0b01011#5 ++ 0b111#3 ++ 0b01010#5 ++ 0b0110011#7) = .ok (.and 10 11 12) := by
  decide

/-- R55, R69 (the rows marked `EXT_M`), R138. -/
theorem test_decode_mul_div_and_fence :
    decode true (0b0000001#7 ++ 0b01100#5 ++ 0b01011#5 ++ 0b000#3 ++ 0b01010#5 ++ 0b0110011#7) = .ok (.mul 10 11 12) ∧
    decode true (0b0000001#7 ++ 0b01100#5 ++ 0b01011#5 ++ 0b001#3 ++ 0b01010#5 ++ 0b0110011#7) = .ok (.mulh 10 11 12) ∧
    decode true (0b0000001#7 ++ 0b01100#5 ++ 0b01011#5 ++ 0b010#3 ++ 0b01010#5 ++ 0b0110011#7) = .ok (.mulhsu 10 11 12) ∧
    decode true (0b0000001#7 ++ 0b01100#5 ++ 0b01011#5 ++ 0b011#3 ++ 0b01010#5 ++ 0b0110011#7) = .ok (.mulhu 10 11 12) ∧
    decode true (0b0000001#7 ++ 0b01100#5 ++ 0b01011#5 ++ 0b100#3 ++ 0b01010#5 ++ 0b0110011#7) = .ok (.div 10 11 12) ∧
    decode true (0b0000001#7 ++ 0b01100#5 ++ 0b01011#5 ++ 0b101#3 ++ 0b01010#5 ++ 0b0110011#7) = .ok (.divu 10 11 12) ∧
    decode true (0b0000001#7 ++ 0b01100#5 ++ 0b01011#5 ++ 0b110#3 ++ 0b01010#5 ++ 0b0110011#7) = .ok (.rem 10 11 12) ∧
    decode true (0b0000001#7 ++ 0b01100#5 ++ 0b01011#5 ++ 0b111#3 ++ 0b01010#5 ++ 0b0110011#7) = .ok (.remu 10 11 12) ∧
    decode true (0b1000#4 ++ 0b0011#4 ++ 0b0110#4 ++ 0b01011#5 ++ 0b000#3 ++ 0b01010#5 ++ 0b0001111#7)
      = .ok (.fence 0b1000 0b0011 0b0110 10 11) := by
  decide

/-! ## 95 W8: the decoded record and the re-encoding -/

/-- What the decoder gives for a word, as its record and the word it encodes to. -/
def roundTrip (w : Word) : Option (Record × Word) :=
  match decode true w with
  | .ok i => some (i.record, encode i)
  | .error _ => none

theorem test_w8_add : roundTrip 0x00C58533 =
    some (⟨.R, 0b0110011, 0b000, 0b0000000, ⟨some 10, some 11, some 12, none⟩⟩, 0x00C58533) := by decide
theorem test_w8_sra : roundTrip 0x40C5D533 =
    some (⟨.R, 0b0110011, 0b101, 0b0100000, ⟨some 10, some 11, some 12, none⟩⟩, 0x40C5D533) := by decide
theorem test_w8_div : roundTrip 0x02C5C533 =
    some (⟨.R, 0b0110011, 0b100, 0b0000001, ⟨some 10, some 11, some 12, none⟩⟩, 0x02C5C533) := by decide
theorem test_w8_addi : roundTrip 0xFFF58513 =
    some (⟨.I, 0b0010011, 0b000, 0b1111111, ⟨some 10, some 11, none, some 0xFFFFFFFF⟩⟩, 0xFFF58513) := by decide
theorem test_w8_srai : roundTrip 0x4035D513 =
    some (⟨.I, 0b0010011, 0b101, 0b0100000, ⟨some 10, some 11, none, some 0x00000403⟩⟩, 0x4035D513) := by decide
theorem test_w8_lw : roundTrip 0xFFC5A503 =
    some (⟨.I, 0b0000011, 0b010, 0b1111111, ⟨some 10, some 11, none, some 0xFFFFFFFC⟩⟩, 0xFFC5A503) := by decide
theorem test_w8_jalr : roundTrip 0x004500E7 =
    some (⟨.I, 0b1100111, 0b000, 0b0000000, ⟨some 1, some 10, none, some 0x00000004⟩⟩, 0x004500E7) := by decide
theorem test_w8_fence : roundTrip 0x0FF0000F =
    some (⟨.I, 0b0001111, 0b000, 0b0000111, ⟨some 0, some 0, none, some 0x000000FF⟩⟩, 0x0FF0000F) := by decide
theorem test_w8_sw : roundTrip 0xFEC5AE23 =
    some (⟨.S, 0b0100011, 0b010, 0b1111111, ⟨none, some 11, some 12, some 0xFFFFFFFC⟩⟩, 0xFEC5AE23) := by decide
theorem test_w8_bne : roundTrip 0xFEB51CE3 =
    some (⟨.B, 0b1100011, 0b001, 0b1111111, ⟨none, some 10, some 11, some 0xFFFFFFF8⟩⟩, 0xFEB51CE3) := by decide
theorem test_w8_beq : roundTrip 0x80000063 =
    some (⟨.B, 0b1100011, 0b000, 0b1000000, ⟨none, some 0, some 0, some 0xFFFFF000⟩⟩, 0x80000063) := by decide
theorem test_w8_lui : roundTrip 0x12345537 =
    some (⟨.U, 0b0110111, 0b101, 0b0001001, ⟨some 10, none, none, some 0x12345000⟩⟩, 0x12345537) := by decide
theorem test_w8_auipc : roundTrip 0xFFFFF517 =
    some (⟨.U, 0b0010111, 0b111, 0b1111111, ⟨some 10, none, none, some 0xFFFFF000⟩⟩, 0xFFFFF517) := by decide
theorem test_w8_jal_forward : roundTrip 0x010000EF =
    some (⟨.J, 0b1101111, 0b000, 0b0000000, ⟨some 1, none, none, some 0x00000010⟩⟩, 0x010000EF) := by decide
theorem test_w8_jal_back : roundTrip 0xFC1FF06F =
    some (⟨.J, 0b1101111, 0b111, 0b1111110, ⟨some 0, none, none, some 0xFFFFFFC0⟩⟩, 0xFC1FF06F) := by decide

/-! ## 95 §2: one step from a small launch state -/

/-- The launch state of 95 §2: registers zero except those listed, `pc = 0x40`, the instruction word there, memory zero except the
bytes listed. -/
def vec (pre : List (Nat × List Byte)) (ins : List (Reg × Word)) (word : Word) : State :=
  let m := pre.foldl (fun m p => Memory.writeBytes m p.1 p.2) []
  let base : State := ⟨Config.standard, Vector.replicate 31 0, 0x40, 0, none, m⟩
  let s := ins.foldl (fun s p => s.setX p.1 p.2) base
  s.setMem (Memory.writeLE s.mem 0x40 .word word)

/-- A register and `pc` after one step that retires. -/
def rdPc (r : Reg) (s : State) : Option (Word × Word) :=
  match step s with
  | .next t => some (t.x r, t.pc)
  | .fault _ => none
  | .refused _ => none

/-- The bytes at `a` and `pc` after one step that retires. -/
def memPc (a n : Nat) (s : State) : Option (List Byte × Word) :=
  match step s with
  | .next t => some ((List.range n).map (fun k => Memory.get t.mem (a + k)), t.pc)
  | .fault _ => none
  | .refused _ => none

/-- The error of one step, and the state the driver then sees. -/
def errOf (s : State) : Option (Fault × State) :=
  match stepCall s with
  | (.fault f, t) => some (f, t)
  | (.next _, _) => none
  | (.refused _, _) => none

theorem test_addi_wraps : rdPc 10 (vec [] [(11, 0x7FFFFFFF)] 0x7FF58513) = some (0x800007FE, 0x44) := by decide
theorem test_addi_x0 : rdPc 0 (vec [] [] 0x00500013) = some (0, 0x44) := by decide
theorem test_slti_negative : rdPc 10 (vec [] [(11, 0xFFFFFFFF)] 0x0055A513) = some (1, 0x44) := by decide
theorem test_slti_minus_one : rdPc 10 (vec [] [(10, 7)] 0xFFF5A513) = some (0, 0x44) := by decide
theorem test_sltiu_seqz : rdPc 10 (vec [] [(11, 0)] 0x0015B513) = some (1, 0x44) := by decide
theorem test_sltiu_extends_first : rdPc 10 (vec [] [(11, 0xFFFFFFFE)] 0xFFF5B513) = some (1, 0x44) := by decide
theorem test_xori_not : rdPc 10 (vec [] [(11, 0x0000FFFF)] 0xFFF5C513) = some (0xFFFF0000, 0x44) := by decide
theorem test_ori_extends : rdPc 10 (vec [] [(11, 0)] 0x8005E513) = some (0xFFFFF800, 0x44) := by decide
theorem test_ori_merges : rdPc 10 (vec [] [(11, 0x0F)] 0x0F05E513) = some (0xFF, 0x44) := by decide
theorem test_andi_masks : rdPc 10 (vec [] [(11, 0x12345678)] 0xFF05F513) = some (0x12345670, 0x44) := by decide
theorem test_slli_drops_high : rdPc 10 (vec [] [(11, 0x80000001)] 0x00459513) = some (0x10, 0x44) := by decide
theorem test_slli_by_31 : rdPc 10 (vec [] [(11, 3)] 0x01F59513) = some (0x80000000, 0x44) := by decide
theorem test_srli_zero_fill : rdPc 10 (vec [] [(11, 0x80000000)] 0x0045D513) = some (0x08000000, 0x44) := by decide
theorem test_srai_sign_fill : rdPc 10 (vec [] [(11, 0x80000000)] 0x4045D513) = some (0xF8000000, 0x44) := by decide
theorem test_srai_by_0 : rdPc 10 (vec [] [(11, 0x80000000)] 0x4005D513) = some (0x80000000, 0x44) := by decide

theorem test_add_w2 : rdPc 10 (vec [] [(11, 0x7FFFFFFF), (12, 1)] 0x00C58533) = some (0x80000000, 0x44) := by decide
theorem test_add_source_is_destination : rdPc 11 (vec [] [(11, 0x40000000)] 0x00B585B3) = some (0x80000000, 0x44) := by decide
theorem test_sub_borrow : rdPc 10 (vec [] [(11, 0), (12, 1)] 0x40C58533) = some (0xFFFFFFFF, 0x44) := by decide
theorem test_sub_order : rdPc 10 (vec [] [(11, 0x80000000), (12, 1)] 0x40C58533) = some (0x7FFFFFFF, 0x44) := by decide
theorem test_sll_masks_to_0 : rdPc 10 (vec [] [(11, 1), (12, 32)] 0x00C59533) = some (1, 0x44) := by decide
theorem test_sll_masks_to_31 : rdPc 10 (vec [] [(11, 3), (12, 0xFFFFFFFF)] 0x00C59533) = some (0x80000000, 0x44) := by decide
theorem test_srl_31 : rdPc 10 (vec [] [(11, 0x80000000), (12, 31)] 0x00C5D533) = some (1, 0x44) := by decide
theorem test_srl_32 : rdPc 10 (vec [] [(11, 0x80000000), (12, 32)] 0x00C5D533) = some (0x80000000, 0x44) := by decide
theorem test_sra_36 : rdPc 10 (vec [] [(11, 0x80000000), (12, 0x24)] 0x40C5D533) = some (0xF8000000, 0x44) := by decide
theorem test_sra_positive : rdPc 10 (vec [] [(11, 0x7FFFFFFF), (12, 31)] 0x40C5D533) = some (0, 0x44) := by decide
theorem test_slt_signed : rdPc 10 (vec [] [(11, 0x80000000), (12, 0x7FFFFFFF)] 0x00C5A533) = some (1, 0x44) := by decide
theorem test_slt_equal : rdPc 10 (vec [] [(11, 5), (12, 5)] 0x00C5A533) = some (0, 0x44) := by decide
theorem test_sltu_unsigned : rdPc 10 (vec [] [(11, 0x80000000), (12, 0x7FFFFFFF)] 0x00C5B533) = some (0, 0x44) := by decide
theorem test_sltu_snez : rdPc 10 (vec [] [(12, 7)] 0x00C03533) = some (1, 0x44) := by decide
theorem test_xor : rdPc 10 (vec [] [(11, 0xFF00FF00), (12, 0x0FF00FF0)] 0x00C5C533) = some (0xF0F0F0F0, 0x44) := by decide
theorem test_or : rdPc 10 (vec [] [(11, 0xF0000000), (12, 0x0000000F)] 0x00C5E533) = some (0xF000000F, 0x44) := by decide
theorem test_and : rdPc 10 (vec [] [(11, 0xFF00FF00), (12, 0x0FF00FF0)] 0x00C5F533) = some (0x0F000F00, 0x44) := by decide

theorem test_lui : rdPc 10 (vec [] [] 0x80000537) = some (0x80000000, 0x44) := by decide
theorem test_auipc : rdPc 10 (vec [] [] 0x00001517) = some (0x00001040, 0x44) := by decide
theorem test_auipc_wraps : rdPc 10 (vec [] [] 0xFFFFF517) = some (0xFFFFF040, 0x44) := by decide

/-- The memory preset of 95 §2.4. -/
def preset : List (Nat × List Byte) := [(0x100, [0x80, 0xFF, 0x34, 0x12]), (0xFFC, [0x78, 0x56, 0x34, 0x12])]

theorem test_lb_sign : rdPc 10 (vec preset [(11, 0x100)] 0x00058503) = some (0xFFFFFF80, 0x44) := by decide
theorem test_lb_last_byte : rdPc 10 (vec preset [(11, 0x1000)] 0xFFF58503) = some (0x12, 0x44) := by decide
theorem test_lbu_zero : rdPc 10 (vec preset [(11, 0x100)] 0x0005C503) = some (0x80, 0x44) := by decide
theorem test_lh_sign : rdPc 10 (vec preset [(11, 0x100)] 0x00059503) = some (0xFFFFFF80, 0x44) := by decide
theorem test_lh_misaligned : rdPc 10 (vec preset [(11, 0x100)] 0x00159503) = some (0x34FF, 0x44) := by decide
theorem test_lhu_zero : rdPc 10 (vec preset [(11, 0x100)] 0x0005D503) = some (0xFF80, 0x44) := by decide
theorem test_lw_misaligned : rdPc 10 (vec preset [(11, 0x100)] 0x0015A503) = some (0x001234FF, 0x44) := by decide
theorem test_lw_last_word : rdPc 10 (vec preset [(11, 0x1000)] 0xFFC5A503) = some (0x12345678, 0x44) := by decide
theorem test_sb_low_byte : memPc 0x1FF 3 (vec [] [(11, 0x200), (12, 0x123456FF)] 0x00C58023) = some ([0, 0xFF, 0], 0x44) := by decide
theorem test_sh_low_half : memPc 0x200 3 (vec [] [(11, 0x200), (12, 0x12345678)] 0x00C59023) = some ([0x78, 0x56, 0], 0x44) := by decide
theorem test_sw_misaligned : memPc 0x200 6 (vec [] [(11, 0x200), (12, 0x12345678)] 0x00C5A0A3)
    = some ([0, 0x78, 0x56, 0x34, 0x12, 0], 0x44) := by decide
theorem test_sw_x0 : memPc 0x100 4 (vec preset [(11, 0x100)] 0x0005A023) = some ([0, 0, 0, 0], 0x44) := by decide

/-- 95 §2.4, the out-of-bounds rows: nothing changes. -/
theorem test_load_out_of_bounds :
    (let s := vec preset [(11, 0x1000)] 0xFFD5A503; errOf s = some (.outOfBounds 0xFFD 4, s)) ∧
    (let s := vec preset [(11, 0x1000)] 0xFFF59503; errOf s = some (.outOfBounds 0xFFF 2, s)) ∧
    (let s := vec preset [(11, 0)] 0xFFF58503; errOf s = some (.outOfBounds 0xFFFFFFFF 1, s)) ∧
    (let s := vec preset [(11, 0x2000)] 0x0005A003; errOf s = some (.outOfBounds 0x2000 4, s)) := by decide
theorem test_store_out_of_bounds :
    (let s := vec [] [(11, 0x1000), (12, 0xDEADBEEF)] 0xFEC5AF23; errOf s = some (.outOfBounds 0xFFE 4, s)) ∧
    (let s := vec [] [(11, 0x1000), (12, 0xBEEF)] 0xFEC59FA3; errOf s = some (.outOfBounds 0xFFF 2, s)) ∧
    (let s := vec [] [(11, 0xFFFFFFFF), (12, 1)] 0x00C58023; errOf s = some (.outOfBounds 0xFFFFFFFF 1, s)) := by decide

theorem test_beq_taken : rdPc 1 (vec [] [(10, 5), (11, 5)] 0x00B50463) = some (0, 0x48) := by decide
theorem test_beq_not_taken_unchecked : rdPc 1 (vec [] [(10, 5), (11, 6)] 0x00B50363) = some (0, 0x44) := by decide
theorem test_bne_back : rdPc 1 (vec [] [(10, 5), (11, 6)] 0xFEB51CE3) = some (0, 0x38) := by decide
theorem test_bne_wraps : rdPc 1 (vec [] [(10, 5), (11, 6)] 0xFAB51EE3) = some (0, 0xFFFFFFFC) := by decide
theorem test_blt_signed : rdPc 1 (vec [] [(10, 0xFFFFFFFF), (11, 0)] 0x00B54663) = some (0, 0x4C) := by decide
theorem test_bltu_unsigned : rdPc 1 (vec [] [(10, 0xFFFFFFFF), (11, 0)] 0x00B56663) = some (0, 0x44) := by decide
theorem test_bltu_equal : rdPc 1 (vec [] [] 0x00B56663) = some (0, 0x44) := by decide
theorem test_bge_equal : rdPc 1 (vec [] [(10, 0x80000000), (11, 0x80000000)] 0x00B55663) = some (0, 0x4C) := by decide
theorem test_bge_signed : rdPc 1 (vec [] [(10, 0x80000000), (11, 0x7FFFFFFF)] 0x00B55663) = some (0, 0x44) := by decide
theorem test_bgeu_unsigned : rdPc 1 (vec [] [(10, 0x80000000), (11, 0x7FFFFFFF)] 0x00B57663) = some (0, 0x4C) := by decide
theorem test_jal_links : rdPc 1 (vec [] [] 0x010000EF) = some (0x44, 0x50) := by decide
theorem test_jal_to_itself : rdPc 1 (vec [] [] 0x000000EF) = some (0x44, 0x40) := by decide
theorem test_jalr_clears_bit_0 : rdPc 1 (vec [] [(10, 0x101)] 0x004500E7) = some (0x44, 0x104) := by decide
theorem test_jalr_uses_old_source : rdPc 10 (vec [] [(10, 0x80)] 0x00050567) = some (0x44, 0x80) := by decide

/-- 95 §2.5, the `MisalignedPC` rows: nothing changes, the link register included. -/
theorem test_misaligned_targets :
    (let s := vec [] [(10, 5), (11, 5)] 0x00B50363; errOf s = some (.misalignedPC 0x46, s)) ∧
    (let s := vec [] [] 0x7E000FE3; errOf s = some (.misalignedPC 0x103E, s)) ∧
    (let s := vec [] [] 0xFBFFF0EF; errOf s = some (.misalignedPC 0xFFFFFFFE, s)) ∧
    (let s := vec [] [(10, 0x102)] 0x004500E7; errOf s = some (.misalignedPC 0x106, s)) ∧
    (let s := vec [] [(10, 0)] 0xFFF500E7; errOf s = some (.misalignedPC 0xFFFFFFFE, s)) := by decide

theorem test_mul_low : rdPc 10 (vec [] [(11, 0x12345678), (12, 0x10)] 0x02C58533) = some (0x23456780, 0x44) := by decide
theorem test_mulh_min_squared : rdPc 10 (vec [] [(11, 0x80000000), (12, 0x80000000)] 0x02C59533) = some (0x40000000, 0x44) := by decide
theorem test_mulh_negative : rdPc 10 (vec [] [(11, 0xFFFFFFFF), (12, 1)] 0x02C59533) = some (0xFFFFFFFF, 0x44) := by decide
theorem test_mulhsu_first_signed : rdPc 10 (vec [] [(11, 0xFFFFFFFF), (12, 0xFFFFFFFF)] 0x02C5A533) = some (0xFFFFFFFF, 0x44) := by decide
theorem test_mulhsu_second_unsigned : rdPc 10 (vec [] [(11, 1), (12, 0xFFFFFFFF)] 0x02C5A533) = some (0, 0x44) := by decide
theorem test_mulhu : rdPc 10 (vec [] [(11, 0xFFFFFFFF), (12, 0xFFFFFFFF)] 0x02C5B533) = some (0xFFFFFFFE, 0x44) := by decide
theorem test_div_toward_zero : rdPc 10 (vec [] [(11, 0xFFFFFFF9), (12, 2)] 0x02C5C533) = some (0xFFFFFFFD, 0x44) := by decide
theorem test_div_overflow : rdPc 10 (vec [] [(11, 0x80000000), (12, 0xFFFFFFFF)] 0x02C5C533) = some (0x80000000, 0x44) := by decide
theorem test_divu_by_zero : rdPc 10 (vec [] [(11, 7), (12, 0)] 0x02C5D533) = some (0xFFFFFFFF, 0x44) := by decide
theorem test_divu_unsigned : rdPc 10 (vec [] [(11, 0xFFFFFFF9), (12, 2)] 0x02C5D533) = some (0x7FFFFFFC, 0x44) := by decide
theorem test_rem_sign_of_dividend : rdPc 10 (vec [] [(11, 0xFFFFFFF9), (12, 2)] 0x02C5E533) = some (0xFFFFFFFF, 0x44) := by decide
theorem test_rem_by_zero : rdPc 10 (vec [] [(11, 0xFFFFFFF9), (12, 0)] 0x02C5E533) = some (0xFFFFFFF9, 0x44) := by decide
theorem test_remu : rdPc 10 (vec [] [(11, 0xFFFFFFF9), (12, 2)] 0x02C5F533) = some (1, 0x44) := by decide
theorem test_remu_small_dividend : rdPc 10 (vec [] [(11, 0x80000000), (12, 0xFFFFFFFF)] 0x02C5F533) = some (0x80000000, 0x44) := by decide

/-- 95 §2.6: with `EXT_M = false` the same word is a `DecodeError`. -/
theorem test_div_absent :
    let s := vec [] [(11, 7), (12, 2)] 0x02C5C533
    errOf ⟨⟨0x1000, false⟩, s.regs, s.pc, s.pcLast, s.instr, s.mem⟩
      = some (.decodeError 0x40 0x02C5C533, ⟨⟨0x1000, false⟩, s.regs, s.pc, s.pcLast, s.instr, s.mem⟩) := by decide

/-- 95 §2.7: FENCE, with any fields, moves `pc` and sets the observation fields; nothing else. -/
theorem test_fence_tso :
    (match step (vec preset [(10, 9)] 0x8330000F) with
      | .next t => decide (t = { vec preset [(10, 9)] 0x8330000F with
          pc := 0x44, pcLast := 0x40, instr := some (.fence 0b1000 0b0011 0b0011 0 0) })
      | .fault _ => false
      | .refused _ => false) = true := by decide

/-- 95 §2.7, the decode error space. -/
theorem test_decode_errors :
    [0x0000100F, 0x0000F00F, 0x00000073, 0x00100073, 0x30200073, 0x10500073, 0xC0002573, 0x00000000, 0xFFFFFFFF, 0x00000001,
      0x0000000B, 0x00002063, 0x00003003, 0x00006003, 0x00003023, 0x00001067, 0x02059513, 0x40059513, 0x4205D513, 0x40C59533,
      0x80C58633].all (fun w : Word => decide ((errOf (vec [] [] w)).map Prod.fst = some (.decodeError 0x40 w))) = true := by decide

/-! ## 95 §2.8, §2.9, W6, W7: fetch, reset, loading, observation -/

/-- A state with the given `pc`, nothing else set. -/
def atPc (a : Word) : State := State.reset.setPc a

theorem test_fetch_priority :
    (errOf (atPc 0x42)).map Prod.fst = some (.misalignedPC 0x42) ∧
    (errOf (atPc 0xFFE)).map Prod.fst = some (.misalignedPC 0xFFE) ∧
    (errOf (atPc 0x7FFFFFFE)).map Prod.fst = some (.misalignedPC 0x7FFFFFFE) ∧
    (errOf (atPc 0x1000)).map Prod.fst = some (.outOfBounds 0x1000 4) ∧
    (errOf (atPc 0xFFFFFFFC)).map Prod.fst = some (.outOfBounds 0xFFFFFFFC 4) ∧
    (errOf (atPc 0xFFC)).map Prod.fst = some (.decodeError 0xFFC 0) := by decide
theorem test_last_word_runs : rdPc 10 ((atPc 0xFFC).withFetchWord 32 0x00100513) = some (1, 0x1000) := by decide

theorem test_reset_values : State.reset.x 2 = 0x1000 ∧ State.reset.x 1 = 0 ∧ State.reset.x 31 = 0 ∧ State.reset.pc = 0 := by decide
theorem test_load_program :
    (match loadProgram State.reset [1, 2, 3, 4] 0xFFC with
      | .ok t => (List.range 4).map (fun k => Memory.get t.mem (0xFFC + k))
      | .error _ => []) = [1, 2, 3, 4] ∧
    loadProgram State.reset [1, 2, 3, 4] 0xFFD = .error (.outOfBounds 0xFFD 4) ∧
    loadProgram State.reset [1] (-1) = .error (.outOfBounds (-1) 1) ∧
    loadProgram State.reset [] 0x1000 = .ok State.reset := by decide

/-- 95 W6: `localRead` at the edges. -/
theorem test_local_read_edges :
    localRead State.reset 0x1000 .byte = .error (.outOfBounds 0x1000 1) ∧
    localRead State.reset (-1) .byte = .error (.outOfBounds (-1) 1) ∧
    localRead State.reset 0xFFF .byte = .ok 0 ∧ localRead State.reset 0xFFC .word = .ok 0 ∧
    localRead State.reset 0xFFD .word = .error (.outOfBounds 0xFFD 4) := by decide

/-- R35, R36: signed reads, truncating writes. -/
theorem test_local_read_is_signed : localRead (vec preset [] 0) 0x100 .half = .ok (-128) := by decide
theorem test_local_write_truncates :
    localWrite State.reset 0x10 .byte 0x1FF = .ok [(0x10, 0xFF)] ∧ localWrite State.reset 0x10 .half (-2) = .ok [(0x10, 0xFE), (0x11, 0xFF)] := by
  decide

/-- 95 W1: the register file by index. -/
theorem test_register_file :
    RegFile.writeIdx State.reset.regs 0 0x12345678 = .ok State.reset.regs ∧ State.reset.readIdx 0 = .ok 0 ∧
    State.reset.readIdx 2 = .ok 0x1000 ∧ State.reset.readIdx 32 = .error (.indexOutOfRange 32) ∧
    RegFile.writeIdx State.reset.regs 32 0 = .error (.indexOutOfRange 32) := by decide

/-- R19. -/
theorem test_abi_names : abiName 0 = "zero" ∧ abiName 2 = "sp" ∧ abiName 10 = "a0" ∧ abiName 31 = "t6" := by decide

/-- 95 W7, its first step: the result record (R33). -/
theorem test_step_record :
    (match loadProgram State.reset [0x93, 0x02, 0xA0, 0x00, 0x93, 0x82, 0x52, 0x00] 0 with
      | .ok s => (match (stepCall s).1 with
        | .next r => r
        | .fault _ => none
        | .refused _ => none)
      | .error _ => none) = some ⟨0, 4, .addi 5 0 10, some 5⟩ := by decide

/-- The host's entries: the table's bits are the word's bits (R53). -/
theorem test_table_word :
    decodeTableWord 32 0x00000073 = none ∧ decodeTableWord 32 0x02C5C533 = some (.div 10 11 12) ∧
    rdPc 10 (State.reset.withFetchWord 32 0x00100513) = some (1, 4) := by decide

/-- Two words and the one row each matches (R69). -/
theorem test_opcode_rows :
    (opcodeTable.filter (fun r => r.hits 0x40C5D533)).map OpcodeRow.mnemonic = ["SRA"] ∧
    (opcodeTable.filter (fun r => r.hits 0x0FF0000F)).map OpcodeRow.mnemonic = ["FENCE"] := by decide

/-! ## Witnesses: for every statement with hypotheses, cases that meet them, each clause at the edge of its range -/

/-- The state of an outcome that is a next state. -/
def nextOf : Result → State
  | .next t => t
  | .fault _ => State.reset
  | .refused _ => State.reset

/-- The outcome is a next state. -/
def isNext : Result → Bool
  | .next _ => true
  | .fault _ => false
  | .refused _ => false

theorem eq_next {r : Result} (h : isNext r = true) : r = .next (nextOf r) := by
  cases r with
  | next t => rfl
  | fault f => cases h
  | refused q => cases h

/-- The fault of an outcome. -/
def faultOf : Result → Option Fault
  | .fault f => some f
  | .next _ => none
  | .refused _ => none

theorem eq_fault {r : Result} {f : Fault} (h : faultOf r = some f) : r = .fault f := by
  cases r with
  | next t => cases h
  | fault g => cases h; rfl
  | refused q => cases h

/-- The ADDI of 95 W1's shape at 0x40: a state that has the invariant and whose step retires. -/
def good : State := vec preset [(11, 7)] 0x00158513

theorem good_inv : good.Inv := ⟨by decide, by decide, by decide, by decide, by decide, by decide⟩

theorem witness_LaunchStatesMeetTheInvariant :
    (⟨4, false⟩ : Config).wf = true ∧ (⟨2 ^ 31 - 4, true⟩ : Config).wf = true ∧
    Memory.wf [(0, 0x13), (3, 0xFF)] ∧ Memory.within 4 [(0, 0x13), (3, 0xFF)] := by decide

theorem witness_StepKeepsTheInvariant : good.Inv ∧ step good = .next (nextOf (step good)) :=
  ⟨good_inv, eq_next (by decide)⟩

theorem witness_EveryReachableStateMeetsTheInvariant :
    (⟨0x1000, true⟩ : Config).wf = true ∧ Memory.wf (Memory.writeLE [] 0 .word 0x00100513) ∧
    Memory.within 0x1000 (Memory.writeLE [] 0 .word 0x00100513) ∧
    Reaches (State.launch ⟨0x1000, true⟩ (Memory.writeLE [] 0 .word 0x00100513))
      (hostReset (nextOf (step (State.launch ⟨0x1000, true⟩ (Memory.writeLE [] 0 .word 0x00100513))))) :=
  ⟨by decide, by decide, by decide, .reset (.step .start (eq_next (by decide)))⟩

theorem witness_DecodeInvertsEncode :
    (Instr.sw 11 12 (-2048)).wellFormed = true ∧ (Instr.sw 11 12 (-2048)).available false = true ∧
    (Instr.remu 31 31 31).wellFormed = true ∧ (Instr.remu 31 31 31).available true = true := by decide

theorem witness_EncodeInvertsDecode : decode false 0xFEC5AE23 = .ok (.sw 11 12 0xFFFFFFFC) := by decide

theorem witness_DecodeFollowsTheOpcodeTable :
    ⟨"DIV", .R, 0x02004033, 0xFE00707F, true⟩ ∈ opcodeTable ∧
    OpcodeRow.hits ⟨"DIV", .R, 0x02004033, 0xFE00707F, true⟩ 0x02C5C533 = true ∧
    Claims.Unmatched false 0x02C5C533 ∧ Claims.Unmatched true 0x00000073 ∧ Claims.Unmatched true 0xFFFFFFFF := by
  unfold Claims.Unmatched; decide

theorem witness_UnmatchedWordsRaiseDecodeError :
    fetch (vec [] [] 0x00000073) = .ok 0x00000073 ∧ Claims.Unmatched (vec [] [] 0x00000073).cfg.extM 0x00000073 := by
  unfold Claims.Unmatched; decide

/-- One word for each disjunct, in order; the ninth without `EXT_M`. -/
theorem witness_ReservedCustomAndSystemWordsRaiseDecodeError :
    [0x00001067, 0x00002063, 0x00003003, 0x00003023, 0x02059513, 0x4205D513, 0x80C58633, 0x40C59533, 0x02C5C533, 0x0000100F,
      0x0000000B, 0x00000073].all (fun w : Word => decide (fetch (vec [] [] w) = .ok w)) = true ∧
    opcodeOf 0x00001067 = 0b1100111#7 ∧ funct3Of 0x00001067 ≠ 0b000#3 ∧
    opcodeOf 0x00002063 = 0b1100011#7 ∧ funct3Of 0x00002063 = 0b010#3 ∧
    opcodeOf 0x00003003 = 0b0000011#7 ∧ funct3Of 0x00003003 = 0b011#3 ∧
    opcodeOf 0x00003023 = 0b0100011#7 ∧ funct3Of 0x00003023 = 0b011#3 ∧
    opcodeOf 0x02059513 = 0b0010011#7 ∧ funct3Of 0x02059513 = 0b001#3 ∧ funct7Of 0x02059513 = 0b0000001#7 ∧
    opcodeOf 0x4205D513 = 0b0010011#7 ∧ funct3Of 0x4205D513 = 0b101#3 ∧ funct7Of 0x4205D513 = 0b0100001#7 ∧
    opcodeOf 0x80C58633 = 0b0110011#7 ∧ funct7Of 0x80C58633 = 0b1000000#7 ∧
    opcodeOf 0x40C59533 = 0b0110011#7 ∧ funct7Of 0x40C59533 = 0b0100000#7 ∧ funct3Of 0x40C59533 = 0b001#3 ∧
    opcodeOf 0x02C5C533 = 0b0110011#7 ∧ funct7Of 0x02C5C533 = 0b0000001#7 ∧
    fetch { vec [] [] 0x02C5C533 with cfg := ⟨0x1000, false⟩ } = .ok 0x02C5C533 ∧
    opcodeOf 0x0000100F = 0b0001111#7 ∧ funct3Of 0x0000100F ≠ 0b000#3 ∧
    opcodeOf 0x0000000B = 0b0001011#7 ∧ opcodeOf 0x00000073 = 0b1110011#7 := by decide

/-- At the last word of memory. -/
theorem witness_StepRunsTheDecodedInstruction :
    let s := (atPc 0xFFC).withFetchWord 32 0x00100513
    s.pc.toNat % 4 = 0 ∧ s.pc.toNat + 4 ≤ s.cfg.memSize ∧
    decode s.cfg.extM (Memory.get s.mem (s.pc.toNat + 3) ++ Memory.get s.mem (s.pc.toNat + 2)
      ++ Memory.get s.mem (s.pc.toNat + 1) ++ Memory.get s.mem s.pc.toNat) = .ok (.addi 10 0 1) := by decide

/-- A misaligned `pc`, also out of bounds; an aligned one just outside; a word that does not decode; one that does; an instruction
whose own error is raised. -/
theorem witness_ErrorsAreReportedInOrder :
    (atPc 0xFFE).pc.toNat % 4 ≠ 0 ∧
    ((atPc 0x1000).pc.toNat % 4 = 0 ∧ (atPc 0x1000).cfg.memSize < (atPc 0x1000).pc.toNat + 4) ∧
    (fetch (vec [] [] 0x00000073) = .ok 0x00000073 ∧ ∀ i, decode true 0x00000073 ≠ .ok i) ∧
    (fetch good = .ok 0x00158513 ∧ decode good.cfg.extM 0x00158513 = .ok (.addi 10 11 1)) ∧
    exec (.lw 10 11 (-3)) (vec [] [(11, 0x1000)] 0) = .fault (.outOfBounds 0xFFD 4) := by
  refine ⟨by decide, by decide, ⟨by decide, ?_⟩, by decide, eq_fault (by decide)⟩
  rw [show decode true 0x00000073 = .error .unknownOpcode from by decide]
  intro i h
  cases h

theorem witness_StepOutcomesAreExactlyTheSpecs :
    step (vec [] [] 0x00000073) = .fault (.decodeError 0x40 0x00000073) ∧
    step (atPc 0x1000) = .fault (.outOfBounds 0x1000 4) ∧
    step (vec [] [(11, 0x1000)] 0xFFD5A503) = .fault (.outOfBounds 0xFFD 4) ∧
    step (atPc 0x42) = .fault (.misalignedPC 0x42) ∧
    step (vec [] [(10, 0x102)] 0x004500E7) = .fault (.misalignedPC 0x106) :=
  ⟨eq_fault (by decide), eq_fault (by decide), eq_fault (by decide), eq_fault (by decide), eq_fault (by decide)⟩

theorem witness_AnErrorLeavesTheState : step (vec [] [] 0x00000000) = .fault (.decodeError 0x40 0) := eq_fault (by decide)

theorem witness_TheRetiredInstructionIsObserved :
    step good = .next (nextOf (step good)) ∧ step (vec [] [] 0x00000000) = .fault (.decodeError 0x40 0) :=
  ⟨eq_next (by decide), eq_fault (by decide)⟩

theorem witness_StepReturnsItsResultRecord : step good = .next (nextOf (step good)) := eq_next (by decide)

theorem witness_OnlyStoresWriteMemory :
    exec (.lw 10 11 0) (vec preset [(11, 0x100)] 0) = .next (nextOf (exec (.lw 10 11 0) (vec preset [(11, 0x100)] 0))) ∧
    (Instr.lw 10 11 0).iType ≠ .S := ⟨eq_next (by decide), by decide⟩

theorem witness_OnlyTheDestinationRegisterChanges :
    exec (.sw 11 12 0) (vec [] [(11, 0x200)] 0) = .next (nextOf (exec (.sw 11 12 0) (vec [] [(11, 0x200)] 0))) ∧
    (Instr.sw 11 12 0).iType = .S ∧ (Instr.beq 10 11 8).iType = .B ∧ (Instr.addi 10 11 1).dest ≠ some 11 :=
  ⟨eq_next (by decide), by decide, by decide, by decide⟩

theorem witness_NextPcIsTheSequenceOrTheTarget :
    exec (.bne 10 11 0xFFFFFFBC) (vec [] [(10, 5)] 0) = .next (nextOf (exec (.bne 10 11 0xFFFFFFBC) (vec [] [(10, 5)] 0))) :=
  eq_next (by decide)

/-- A branch that wraps to an address outside memory. -/
theorem witness_EveryStepLeavesAnAlignedPc :
    step (vec [] [(10, 5), (11, 6)] 0xFAB51EE3) = .next (nextOf (step (vec [] [(10, 5), (11, 6)] 0xFAB51EE3))) ∧
    0x1000 < (nextOf (step (vec [] [(10, 5), (11, 6)] 0xFAB51EE3))).pc.toNat + 4 := ⟨eq_next (by decide), by decide⟩

/-- The last word of memory. -/
theorem witness_SequentialPcNeverWraps : (atPc 0xFFC).cfg.wf = true ∧ fetch (atPc 0xFFC) = .ok 0 := by decide

theorem witness_RegisterZeroIsHardWired :
    exec (.lw 0 11 0) (vec preset [(11, 0x100)] 0) = .next (nextOf (exec (.lw 0 11 0) (vec preset [(11, 0x100)] 0))) ∧
    (Instr.lw 0 11 0).dest = some 0 ∧
    exec (.jal 0 16) good = .next (nextOf (exec (.jal 0 16) good)) ∧
    0x1000 < (effectiveAddress (vec [] [(11, 0x2000)] 0) 11 0).toNat + 4 :=
  ⟨eq_next (by decide), by decide, eq_next (by decide), by decide⟩

/-- The fields of the words the integer instructions' decoding clauses speak of: opcode, funct3, funct7. -/
theorem witness_integer_decoding :
    [(0x00158513, 0b0010011, 0b000, 0b0000000), (0x0055A513, 0b0010011, 0b010, 0b0000000), (0x0015B513, 0b0010011, 0b011, 0b0000000),
      (0xFFF5C513, 0b0010011, 0b100, 0b1111111), (0x0F05E513, 0b0010011, 0b110, 0b0000111), (0xFF05F513, 0b0010011, 0b111, 0b1111111),
      (0x00459513, 0b0010011, 0b001, 0b0000000), (0x0045D513, 0b0010011, 0b101, 0b0000000), (0x4045D513, 0b0010011, 0b101, 0b0100000),
      (0x02059513, 0b0010011, 0b001, 0b0000001), (0x00C58533, 0b0110011, 0b000, 0b0000000), (0x40C58533, 0b0110011, 0b000, 0b0100000),
      (0x00C59533, 0b0110011, 0b001, 0b0000000), (0x00C5A533, 0b0110011, 0b010, 0b0000000), (0x00C5B533, 0b0110011, 0b011, 0b0000000),
      (0x00C5C533, 0b0110011, 0b100, 0b0000000), (0x00C5D533, 0b0110011, 0b101, 0b0000000), (0x40C5D533, 0b0110011, 0b101, 0b0100000),
      (0x00C5E533, 0b0110011, 0b110, 0b0000000), (0x00C5F533, 0b0110011, 0b111, 0b0000000)].all
        (fun p : Word × BitVec 7 × BitVec 3 × BitVec 7 =>
          opcodeOf p.1 == p.2.1 && funct3Of p.1 == p.2.2.1 && funct7Of p.1 == p.2.2.2) = true := by decide

/-- The same for the other families. -/
theorem witness_other_decoding :
    [(0x02C58533, 0b0110011, 0b000, 0b0000001), (0x02C59533, 0b0110011, 0b001, 0b0000001), (0x02C5A533, 0b0110011, 0b010, 0b0000001),
      (0x02C5B533, 0b0110011, 0b011, 0b0000001), (0x02C5C533, 0b0110011, 0b100, 0b0000001), (0x02C5D533, 0b0110011, 0b101, 0b0000001),
      (0x02C5E533, 0b0110011, 0b110, 0b0000001), (0x02C5F533, 0b0110011, 0b111, 0b0000001)].all
        (fun p : Word × BitVec 7 × BitVec 3 × BitVec 7 =>
          opcodeOf p.1 == p.2.1 && funct3Of p.1 == p.2.2.1 && funct7Of p.1 == p.2.2.2) = true ∧
    [(0x00058503, 0b0000011, 0b000), (0x00059503, 0b0000011, 0b001), (0x0005A503, 0b0000011, 0b010), (0x0005C503, 0b0000011, 0b100),
      (0x0005D503, 0b0000011, 0b101), (0x00C58023, 0b0100011, 0b000), (0x00C59023, 0b0100011, 0b001), (0x00C5A023, 0b0100011, 0b010),
      (0x00B50463, 0b1100011, 0b000), (0xFEB51CE3, 0b1100011, 0b001), (0x00B54663, 0b1100011, 0b100), (0x00B55663, 0b1100011, 0b101),
      (0x00B56663, 0b1100011, 0b110), (0x00B57663, 0b1100011, 0b111), (0x004500E7, 0b1100111, 0b000), (0x00001067, 0b1100111, 0b001),
      (0x0FF0000F, 0b0001111, 0b000), (0x12345537, 0b0110111, 0b101), (0x00001517, 0b0010111, 0b001), (0x010000EF, 0b1101111, 0b000)].all
        (fun p : Word × BitVec 7 × BitVec 3 => opcodeOf p.1 == p.2.1 && funct3Of p.1 == p.2.2) = true := by decide

/-- The corners of the division clauses: a zero divisor, the overflow pair, and neither (R134 to R137). -/
theorem witness_DivideRoundsTowardZero_RemainderMatchesTheQuotient :
    (10 : Reg) ≠ 0 ∧ (vec [] [(11, 7)] 0).x 12 = 0 ∧
    ((vec [] [(11, 0x80000000), (12, 0xFFFFFFFF)] 0).x 11 = 0x80000000#32 ∧
      (vec [] [(11, 0x80000000), (12, 0xFFFFFFFF)] 0).x 12 = 0xFFFFFFFF#32) ∧
    ((vec [] [(11, 0x80000000), (12, 2)] 0).x 12 ≠ 0 ∧
      ¬ ((vec [] [(11, 0x80000000), (12, 2)] 0).x 11 = 0x80000000#32 ∧
        (vec [] [(11, 0x80000000), (12, 2)] 0).x 12 = 0xFFFFFFFF#32)) := by decide

theorem witness_DivisionLaw :
    let s := vec [] [(11, 0xFFFFFFF9), (12, 2)] 0
    (10 : Reg) ≠ 0 ∧ (13 : Reg) ≠ 0 ∧ s.x 12 ≠ 0 ∧ ¬ (s.x 11 = 0x80000000#32 ∧ s.x 12 = 0xFFFFFFFF#32) ∧
    exec (.div 10 11 12) s = .next (nextOf (exec (.div 10 11 12) s)) ∧
    exec (.rem 13 11 12) s = .next (nextOf (exec (.rem 13 11 12) s)) ∧
    exec (.divu 10 11 12) s = .next (nextOf (exec (.divu 10 11 12) s)) ∧
    exec (.remu 13 11 12) s = .next (nextOf (exec (.remu 13 11 12) s)) :=
  ⟨by decide, by decide, by decide, by decide, eq_next (by decide), eq_next (by decide), eq_next (by decide), eq_next (by decide)⟩

/-- The last address each width can be read or written at, and the first it cannot: LoadByteExtends, LoadHalfwordExtends,
LoadWordIsLittleEndian, StoresWriteTheirBytesOnly, MemReadIsLittleEndian, MemWriteIsLittleEndian. -/
theorem witness_access_edges :
    let s := vec preset [(11, 0x1000)] 0
    (effectiveAddress s 11 (-1)).toNat + 1 ≤ s.cfg.memSize ∧ s.cfg.memSize < (effectiveAddress s 11 0).toNat + 1 ∧
    (effectiveAddress s 11 (-2)).toNat + 2 ≤ s.cfg.memSize ∧ s.cfg.memSize < (effectiveAddress s 11 (-1)).toNat + 2 ∧
    (effectiveAddress s 11 (-4)).toNat + 4 ≤ s.cfg.memSize ∧ s.cfg.memSize < (effectiveAddress s 11 (-3)).toNat + 4 ∧
    s.cfg.memSize < (effectiveAddress s 0 (-1)).toNat + 1 := by decide

/-- A store at the last address of each width, and another register and displacement that make the same address. -/
theorem witness_ALoadReturnsTheStoreBeforeIt :
    let s := vec [] [(11, 0x1000), (12, 0x12345678), (13, 0x7FC)] 0
    (10 : Reg) ≠ 0 ∧
    effectiveAddress (nextOf (exec (.sw 11 12 (-4)) s)) 13 0x800 = effectiveAddress s 11 (-4) ∧
    exec (.sw 11 12 (-4)) s = .next (nextOf (exec (.sw 11 12 (-4)) s)) ∧
    effectiveAddress (nextOf (exec (.sh 11 12 (-2)) s)) 13 0x802 = effectiveAddress s 11 (-2) ∧
    exec (.sh 11 12 (-2)) s = .next (nextOf (exec (.sh 11 12 (-2)) s)) ∧
    effectiveAddress (nextOf (exec (.sb 11 12 (-1)) s)) 13 0x803 = effectiveAddress s 11 (-1) ∧
    exec (.sb 11 12 (-1)) s = .next (nextOf (exec (.sb 11 12 (-1)) s)) :=
  ⟨by decide, by decide, eq_next (by decide), by decide, eq_next (by decide), by decide, eq_next (by decide)⟩

/-- The next instruction is the last word of memory. -/
theorem witness_AStoreIsSeenByTheNextFetch :
    let s := (vec [] [(12, 0x00150513)] 0).setPc 0xFF8
    s.pc.toNat % 4 = 0 ∧ effectiveAddress s 0 0xFFC = s.pc + 4 ∧
    exec (.sw 0 12 0xFFC) s = .next (nextOf (exec (.sw 0 12 0xFFC) s)) := ⟨by decide, by decide, eq_next (by decide)⟩

/-- EqualityBranches, SignedBranches, UnsignedBranches: each condition true and false at its boundary, with an aligned target and
with one that is 2 modulo 4. -/
theorem witness_branches :
    let s := vec [] [(10, 5), (11, 5), (12, 6), (13, 0xFFFFFFFF)] 0
    s.x 10 = s.x 11 ∧ s.x 10 ≠ s.x 12 ∧
    (s.x 10).toInt < (s.x 12).toInt ∧ ¬ (s.x 10).toInt < (s.x 11).toInt ∧ (s.x 13).toInt < (s.x 10).toInt ∧
    (s.x 10).toNat < (s.x 12).toNat ∧ ¬ (s.x 10).toNat < (s.x 11).toNat ∧ (s.x 10).toNat < (s.x 13).toNat ∧
    (s.pc + 8).toNat % 4 = 0 ∧ (s.pc + 0xFFFFF000).toNat % 4 = 0 ∧ (s.pc + 6).toNat % 4 ≠ 0 := by decide

/-- JalJumpsAndLinks, JalrJumpsAndLinks: aligned and misaligned targets, bit 0 cleared. -/
theorem witness_jumps :
    let s := vec [] [(10, 0x101), (11, 0x102)] 0
    (s.pc + 0xFFFFFFC0).toNat % 4 = 0 ∧ (s.pc + 0xFFFFFFBE).toNat % 4 ≠ 0 ∧
    ((0x104 : Word).toNat = (s.x 10 + 4).toNat / 2 * 2 ∧ (0x104 : Word).toNat % 4 = 0) ∧
    ((0x106 : Word).toNat = (s.x 11 + 4).toNat / 2 * 2 ∧ (0x106 : Word).toNat % 4 ≠ 0) := by decide

theorem witness_OnlyTargetsTwoModuloFourAreMisaligned :
    let s := vec [] [(10, 5)] 0
    ((Instr.bne 10 11 6).wellFormed = true ∧ s.pc.toNat % 4 = 0 ∧ exec (.bne 10 11 6) s = .fault (.misalignedPC 0x46)) ∧
    ((Instr.beq 10 11 6).iType = .B ∧ ¬ Claims.Taken (.beq 10 11 6) s) ∧
    (Claims.Taken (.bne 10 11 0xFC0) s ∧ Claims.NextPcs (.bne 10 11 0xFC0) s 0x1000) ∧
    (Claims.Taken (.jalr 1 10 0xFFB) s ∧ Claims.NextPcs (.jalr 1 10 0xFFB) s 0x1000) ∧
    ((0x1000 : Word).toNat % 4 = 0 ∧ s.cfg.memSize < (0x1000 : Word).toNat + 4) :=
  ⟨⟨by decide, by decide, eq_fault (by decide)⟩, ⟨rfl, by simp only [Claims.Taken]; decide⟩,
    ⟨by simp only [Claims.Taken]; decide, by simp only [Claims.NextPcs]; decide⟩,
    ⟨trivial, by simp only [Claims.NextPcs]; decide⟩, by decide⟩

/-- Both ends of the legal sizes. -/
theorem witness_BoundsVerdictsAgree :
    (⟨4, true⟩ : Config).wf = true ∧ (⟨2 ^ 31 - 4, true⟩ : Config).wf = true ∧
    inBounds State.reset.cfg 0xFFD Width.word.bytes = false ∧ inBounds State.reset.cfg 0xFFFFFFFF Width.byte.bytes = false := by
  decide

/-- The last place four bytes fit, the first they do not, and a negative address; no bytes at the end of memory. -/
theorem witness_LoadProgramWritesAllOrNothing :
    ((0 : Int) ≤ 0xFFC ∧ (0xFFC : Int) + ([1, 2, 3, 4] : List Byte).length ≤ State.reset.cfg.memSize) ∧
    ((State.reset.cfg.memSize : Int) < 0xFFD + ([1, 2, 3, 4] : List Byte).length) ∧ (-1 : Int) < 0 ∧
    ((0x1000 : Int) + ([] : List Byte).length ≤ State.reset.cfg.memSize) ∧
    (State.reset.pc.toNat % 4 = 0 ∧ loadProgram State.reset [0x13, 0x05, 0x10, 0x00] 0
      = .ok (State.reset.setMem [(0, 0x13), (1, 0x05), (2, 0x10)])) := by decide

theorem witness_ResetAndLoadProgramCommute :
    loadProgram State.reset [0xFF] 0xFFF = .ok (State.reset.setMem [(0xFFF, 0xFF)]) ∧
    loadProgram State.reset [0xFF] 0x1000 = .error (.outOfBounds 0x1000 1) := by decide

theorem witness_RegisterFileInterface : (31 : Reg) ≠ 0 ∧ (-1 : Int) < 0 ∧ (31 : Int) < 32 := by decide

theorem witness_LocalReadIsTheSignedMemRead :
    ((0 : Int) ≤ 0xFFC ∧ (0xFFC : Int) + Width.word.bytes ≤ State.reset.cfg.memSize) ∧
    (-1 : Int) < 0 ∧ (State.reset.cfg.memSize : Int) < 0xFFD + Width.word.bytes ∧
    memRead (vec preset [] 0) 0x100 .half = .ok 0xFF80 := by decide

/-- The last place four bytes fit, a negative address, the first they do not fit. -/
theorem witness_LocalWriteTruncates :
    ((0 : Int) ≤ 0xFFC ∧ (0xFFC : Int) + Width.word.bytes ≤ State.reset.cfg.memSize) ∧ (-1 : Int) < 0 ∧
    ((State.reset.cfg.memSize : Int) < 0xFFD + Width.word.bytes) := by decide

/-- A range that ends at the end of memory, one that starts below zero, one that crosses the end; the range that starts below zero, empty. -/
theorem witness_RangeReadIsOneByteReads :
    ((0 : Int) ≤ 0xFFC ∧ (0xFFC : Int) + (4 : Nat) ≤ State.reset.cfg.memSize) ∧
    ((4 : Nat) ≠ 0 ∧ (-2 : Int) < 0) ∧ ((State.reset.cfg.memSize : Int) < 0xFFD + (4 : Nat)) ∧
    readRange State.reset (-2) 0 = .ok [] := by decide

end Sys2Proof.Tests
end

/-! SUPPORT. The decoder's words and the observation fields, the result record, and the register file, and with them the
statements of 10_state.md. -/

namespace Sys2Proof

/-! ## Encoding what was decoded gives the word back -/

section
variable {w : Word} {i : Instr}

/-- The one funct3 that a match on the other seven leaves. -/
theorem funct3_eq_seven {f : BitVec 3} (h0 : f ≠ 0) (h1 : f ≠ 1) (h2 : f ≠ 2) (h3 : f ≠ 3) (h4 : f ≠ 4) (h5 : f ≠ 5)
    (h6 : f ≠ 6) : f = 7 := by bv_omega

theorem encodeR_of_fields {funct7 : BitVec 7} {funct3 : BitVec 3} {opcode : BitVec 7} (h7 : funct7Of w = funct7)
    (h3 : funct3Of w = funct3) (hop : opcodeOf w = opcode) :
    encodeR funct7 (rs2Of w) (rs1Of w) funct3 (rdOf w) opcode = w := by
  subst h7 h3 hop; exact encodeR_fields w

theorem encodeI_of_fields {funct3 : BitVec 3} {opcode : BitVec 7} (h3 : funct3Of w = funct3) (hop : opcodeOf w = opcode) :
    encodeI (immI w) (rs1Of w) funct3 (rdOf w) opcode = w := by
  subst h3 hop; exact encodeI_fields w

theorem encodeS_of_fields {funct3 : BitVec 3} {opcode : BitVec 7} (h3 : funct3Of w = funct3) (hop : opcodeOf w = opcode) :
    encodeS (immS w) (rs2Of w) (rs1Of w) funct3 opcode = w := by
  subst h3 hop; exact encodeS_fields w

theorem encodeB_of_fields {funct3 : BitVec 3} {opcode : BitVec 7} (h3 : funct3Of w = funct3) (hop : opcodeOf w = opcode) :
    encodeB (immB w) (rs2Of w) (rs1Of w) funct3 opcode = w := by
  subst h3 hop; exact encodeB_fields w

theorem encodeU_of_fields {opcode : BitVec 7} (hop : opcodeOf w = opcode) : encodeU (immU w) (rdOf w) opcode = w := by
  subst hop; exact encodeU_fields w

theorem encodeJ_of_fields {opcode : BitVec 7} (hop : opcodeOf w = opcode) : encodeJ (immJ w) (rdOf w) opcode = w := by
  subst hop; exact encodeJ_fields w

/-- FENCE's three fields are the bits of its word's I-immediate (R138). -/
theorem encode_fence_of_fields (h3 : funct3Of w = 0b000#3) (hop : opcodeOf w = 0b0001111#7) :
    encode (.fence (w.extractLsb' 28 4) (w.extractLsb' 24 4) (w.extractLsb' 20 4) (rdOf w) (rs1Of w)) = w := by
  have himm : ((w.extractLsb' 28 4 ++ w.extractLsb' 24 4 ++ w.extractLsb' 20 4).setWidth 32 : Word).extractLsb' 0 12
      = (immI w).extractLsb' 0 12 := by
    ext k hk
    simp only [immI, BitVec.getElem_extractLsb', BitVec.getLsbD_setWidth, BitVec.getLsbD_append,
      BitVec.getLsbD_signExtend, BitVec.getLsbD_extractLsb']
    interval_cases k <;> simp
  rw [encode_fence, encodeI, himm]
  exact encodeI_of_fields h3 hop

theorem encode_of_decodeJalr (hop : opcodeOf w = 0b1100111#7) (h : decodeJalr w = .ok i) : encode i = w := by
  unfold decodeJalr at h
  split at h <;> cases h
  next h3 => exact encodeI_of_fields h3 hop

theorem encode_of_decodeBranch (hop : opcodeOf w = 0b1100011#7) (h : decodeBranch w = .ok i) : encode i = w := by
  unfold decodeBranch at h
  split at h <;> cases h
  all_goals next h3 => exact encodeB_of_fields h3 hop

theorem encode_of_decodeLoad (hop : opcodeOf w = 0b0000011#7) (h : decodeLoad w = .ok i) : encode i = w := by
  unfold decodeLoad at h
  split at h <;> cases h
  all_goals next h3 => exact encodeI_of_fields h3 hop

theorem encode_of_decodeStore (hop : opcodeOf w = 0b0100011#7) (h : decodeStore w = .ok i) : encode i = w := by
  unfold decodeStore at h
  split at h <;> cases h
  all_goals next h3 => exact encodeS_of_fields h3 hop

theorem encode_of_decodeMiscMem (hop : opcodeOf w = 0b0001111#7) (h : decodeMiscMem w = .ok i) : encode i = w := by
  unfold decodeMiscMem at h
  split at h <;> cases h
  next h3 => exact encode_fence_of_fields h3 hop

/-- The shifts are R-format words (R66), the rest of OP-IMM is I-format. -/
theorem encode_of_decodeOpImm (hop : opcodeOf w = 0b0010011#7) (h : decodeOpImm w = .ok i) : encode i = w := by
  unfold decodeOpImm at h
  split at h
  case h_2 h3 =>
    split at h <;> cases h
    next h7 => exact encodeR_of_fields h7 h3 hop
  case h_6 h3 =>
    split at h <;> cases h
    all_goals next h7 => exact encodeR_of_fields h7 h3 hop
  case h_8 h0 h1 h2 h3 h4 h5 h6 => cases h; exact encodeI_of_fields (funct3_eq_seven h0 h1 h2 h3 h4 h5 h6) hop
  all_goals next h3 => cases h; exact encodeI_of_fields h3 hop

theorem encode_decodeOpBase (hop : opcodeOf w = 0b0110011#7) (h7 : funct7Of w = 0b0000000#7) :
    encode (decodeOpBase w) = w := by
  unfold decodeOpBase
  split
  case h_8 h0 h1 h2 h3 h4 h5 h6 => exact encodeR_of_fields h7 (funct3_eq_seven h0 h1 h2 h3 h4 h5 h6) hop
  all_goals next h3 => exact encodeR_of_fields h7 h3 hop

theorem encode_of_decodeOpAlt (hop : opcodeOf w = 0b0110011#7) (h7 : funct7Of w = 0b0100000#7)
    (h : decodeOpAlt w = .ok i) : encode i = w := by
  unfold decodeOpAlt at h
  split at h <;> cases h
  all_goals next h3 => exact encodeR_of_fields h7 h3 hop

theorem encode_decodeOpMulDiv (hop : opcodeOf w = 0b0110011#7) (h7 : funct7Of w = 0b0000001#7) :
    encode (decodeOpMulDiv w) = w := by
  unfold decodeOpMulDiv
  split
  case h_8 h0 h1 h2 h3 h4 h5 h6 => exact encodeR_of_fields h7 (funct3_eq_seven h0 h1 h2 h3 h4 h5 h6) hop
  all_goals next h3 => exact encodeR_of_fields h7 h3 hop

theorem encode_of_decodeOp {extM : Bool} (hop : opcodeOf w = 0b0110011#7) (h : decodeOp extM w = .ok i) :
    encode i = w := by
  unfold decodeOp at h
  split at h
  · next h7 => cases h; exact encode_decodeOpBase hop h7
  · next h7 => exact encode_of_decodeOpAlt hop h7 h
  · next h7 => split at h <;> cases h; exact encode_decodeOpMulDiv hop h7
  · cases h

/-- No bit of a decoded word is dropped (R54 to R66, R69): its instruction encodes to it. -/
theorem encode_of_decode {extM : Bool} (h : decode extM w = .ok i) : encode i = w := by
  unfold decode at h
  split at h
  · next hop => cases h; exact encodeU_of_fields hop
  · next hop => cases h; exact encodeU_of_fields hop
  · next hop => cases h; exact encodeJ_of_fields hop
  · next hop => exact encode_of_decodeJalr hop h
  · next hop => exact encode_of_decodeBranch hop h
  · next hop => exact encode_of_decodeLoad hop h
  · next hop => exact encode_of_decodeStore hop h
  · next hop => exact encode_of_decodeOpImm hop h
  · next hop => exact encode_of_decodeOp hop h
  · next hop => exact encode_of_decodeMiscMem hop h
  · cases h

/-- The record of R24 is that of the decoded word itself. -/
theorem record_of_decode {extM : Bool} (h : decode extM w = .ok i) : i.record = recordOf i.iType w := by
  rw [Instr.record, encode_of_decode h]

end

end Sys2Proof

namespace Sys2Proof.Machine

/-! ## The observation fields are written and never read (R23, R24) -/

section
variable (i : Instr) (s : State) (a : Word) (j : Option Instr)

/-- Retirement overwrites both observation fields. -/
theorem retire_of_observed (e : Effect) : retire i e { s with pcLast := a, instr := j } = retire i e s := by
  rcases e with ⟨_ | ⟨r, v⟩, _ | st, npc⟩ <;> rfl

theorem finish_of_observed (e : Except Fault Effect) :
    finish i e { s with pcLast := a, instr := j } = finish i e s := by
  cases e with
  | ok e => rw [finish, retire_of_observed]; rfl
  | error f => rfl

/-- The effect of every meaning is computed from the parameters, the registers, `pc` and memory alone: the integer instructions
and FENCE always retire, the others can raise their own error. -/
theorem exec_of_observed : exec i { s with pcLast := a, instr := j } = exec i s := by
  cases i with
  | lui | auipc | addi | slti | sltiu | xori | ori | andi | slli | srli | srai | add | sub | sll | slt | sltu | xor
  | srl | sra | or | and | fence | mul | mulh | mulhsu | mulhu | div | divu | rem | remu =>
    exact congrArg Host.Outcome.next (retire_of_observed _ s a j _)
  | jal | jalr | beq | bne | blt | bge | bltu | bgeu | lb | lh | lw | lbu | lhu | sb | sh | sw =>
    exact finish_of_observed _ s a j _

theorem step_of_observed : step { s with pcLast := a, instr := j } = step s := by
  have hd : fetchDecode { s with pcLast := a, instr := j } = fetchDecode s := rfl
  rw [step, hd, step]
  cases fetchDecode s with
  | ok i => exact exec_of_observed i s a j
  | error f => rfl

end

/-! ## What a call of `step()` returns (R33) -/

theorem stepCall_of_next {s t : State} (h : step s = .next t) : stepCall s = (.next t.stepResult, t) := by
  rw [stepCall, h]

theorem stepCall_of_fault {s : State} {f : Fault} (h : step s = .fault f) : stepCall s = (.fault f, s) := by
  rw [stepCall, h]

@[simp] theorem stepResult_retire (i : Instr) (e : Effect) (s : State) : (retire i e s).stepResult =
    some { pcOld := s.pc, pcNew := e.npc, instr := i, rdWritten := rdWrittenOf i } := by
  simp [State.stepResult]

theorem rdWrittenOf_eq_some {i : Instr} {k : Reg} : rdWrittenOf i = some k ↔ i.dest = some k ∧ k ≠ 0 := by
  unfold rdWrittenOf
  cases i.dest with
  | none => simp
  | some r =>
    by_cases hr : r = 0
    · subst hr; simp [eq_comm]
    · simp only [hr, ↓reduceIte, Option.some.injEq, iff_self_and]
      rintro rfl; exact hr

/-- An effect writes no register but the instruction's destination (R83). -/
theorem LegalEffect.retire_x_of_dest_ne {i : Instr} {s : State} {e : Effect} (he : LegalEffect i s e) {k : Reg}
    (hk : i.dest ≠ some k) : (retire i e s).x k = s.x k := by
  rw [retire_x]
  rw [← he.reg] at hk
  cases hreg : e.reg with
  | none => rfl
  | some p =>
    have hne : k ≠ p.1 := by rintro rfl; simp [hreg] at hk
    simp [hne]

/-- No register changes but the one `rdWritten` names: a write to `x0` is discarded (R17). -/
theorem exec_x_of_rdWritten_ne {i : Instr} {s t : State} (h : exec i s = .next t) {k : Reg}
    (hk : rdWrittenOf i ≠ some k) : t.x k = s.x k := by
  obtain ⟨e, rfl, he⟩ := exec_eq_next h
  by_cases hk0 : k = 0
  · simp [hk0]
  · exact he.retire_x_of_dest_ne fun hd => hk (rdWrittenOf_eq_some.2 ⟨hd, hk0⟩)

/-! ## The register file by index (R20) -/

@[simp] theorem State.readIdx_val (s : State) (r : Reg) : s.readIdx (r.val : Int) = .ok (s.x r).toInt := by
  have hr : (0 : Int) ≤ r.val ∧ (r.val : Int) < 32 := by omega
  rw [State.readIdx, dif_pos hr]; rfl

@[simp] theorem RegFile.writeIdx_val (f : RegFile) (r : Reg) (v : Word) :
    RegFile.writeIdx f (r.val : Int) v = .ok (RegFile.write f r v) := by
  have hr : (0 : Int) ≤ r.val ∧ (r.val : Int) < 32 := by omega
  rw [RegFile.writeIdx, dif_pos hr]; rfl

theorem State.readIdx_zero (s : State) : s.readIdx 0 = .ok 0 := by
  simpa using s.readIdx_val 0

theorem State.readIdx_of_outside (s : State) {i : Int} (hi : i < 0 ∨ 31 < i) :
    s.readIdx i = .error (.indexOutOfRange i) := dif_neg (by omega)

theorem RegFile.writeIdx_of_outside (f : RegFile) (v : Word) {i : Int} (hi : i < 0 ∨ 31 < i) :
    RegFile.writeIdx f i v = .error (.indexOutOfRange i) := dif_neg (by omega)

/-! ## The statements -/

/-- Settles O17: the record is a view of the decoded word, and nothing a step computes comes from the observation fields. -/
theorem theRetiredInstructionIsObserved : Obligations.TheRetiredInstructionIsObserved := by
  refine ⟨fun s t h => ?_, fun s => ⟨rfl, rfl⟩, fun s f h => by simp [stepCall_of_fault h], step_of_observed⟩
  obtain ⟨w, i, hw, hi, hx⟩ := step_eq_next.1 h
  obtain ⟨e, rfl, -⟩ := exec_eq_next hx
  refine ⟨w, i, hw, hi, retire_pcLast i e s, retire_instr i e s, ?_⟩
  rw [record_of_decode hi]
  exact ⟨rfl, rfl, rfl, rfl, rfl⟩

/-- Settles O18: the record is read from the state the step ends in. -/
theorem stepReturnsItsResultRecord : Obligations.StepReturnsItsResultRecord := by
  refine ⟨fun s f h => by rw [stepCall_of_fault h], fun s t h => ?_⟩
  obtain ⟨w, i, -, -, hx⟩ := step_eq_next.1 h
  have hregs : ∀ k, rdWrittenOf i ≠ some k → t.x k = s.x k := fun k => exec_x_of_rdWritten_ne hx
  obtain ⟨e, rfl, -⟩ := exec_eq_next hx
  exact ⟨⟨s.pc, e.npc, i, rdWrittenOf i⟩, by rw [stepCall_of_next h, stepResult_retire], rfl,
    (retire_pc i e s).symm, retire_instr i e s, (retire_pcLast i e s).symm, fun _ => rdWrittenOf_eq_some, hregs⟩

/-- Settles O24: `rdWritten` is NONE when the destination is `x0`; JAL's target and LW's check do not depend on it. -/
theorem registerZeroIsHardWired : Obligations.RegisterZeroIsHardWired := by
  refine ⟨fun s => ⟨s.x_zero, s.readIdx_zero⟩, fun i s t h hd r => ?_, fun s t imm h => ?_, fun s rs1 imm hb => ?_⟩
  · exact exec_x_of_rdWritten_ne h (by simp [rdWrittenOf, hd])
  · obtain ⟨e, he, rfl⟩ := finish_eq_next.1 (show finish _ (jumpEffect s 0 (pcTarget s imm)) s = .next t from h)
    obtain ⟨-, rfl⟩ := jumpEffect_eq_ok.1 he
    rw [retire_pc, pcTarget]
  · exact finish_eq_fault.2 (loadEffect_eq_error.2 ⟨Nat.not_le.2 hb, rfl⟩)

/-- Settles O54: an index in `[0, 31]` is a register, and the register file's own laws say the rest. -/
theorem registerFileInterface : Obligations.RegisterFileInterface := by
  refine ⟨State.readIdx_val, State.readIdx_zero, fun f v => ?_, fun f r v hr => ?_, fun s f v i hi => ?_⟩
  · simpa using RegFile.writeIdx_val f 0 v
  · exact ⟨_, RegFile.writeIdx_val f r v, by simp [RegFile.read_write, hr], fun k hk => by simp [RegFile.read_write, hk]⟩
  · exact ⟨s.readIdx_of_outside hi, RegFile.writeIdx_of_outside f v hi⟩

end Sys2Proof.Machine

/-! SUPPORT. The bounds check in its two forms, MemWrite's outcomes and the bytes it leaves, and with them the statements of
20_memory.md. -/

namespace Sys2Proof

theorem Config.wf_iff (c : Config) : c.wf = true ↔ c.memSize % 4 = 0 ∧ 4 ≤ c.memSize ∧ c.memSize ≤ 2 ^ 31 - 4 := by
  simp [Config.wf, and_assoc]

end Sys2Proof

namespace Sys2Proof.Machine

/-! ## The bounds check (R35, R37) -/

theorem inBounds_eq_false_iff (c : Config) (a : Word) (n : Nat) : inBounds c a n = false ↔ c.memSize < a.toNat + n := by
  simp [inBounds]

theorem hostInBounds_iff (c : Config) (address : Int) (n : Nat) :
    hostInBounds c address n = true ↔ 0 ≤ address ∧ address + n ≤ c.memSize := by
  simp [hostInBounds]

/-- R37: `MEM_SIZE < 2^31`, so an address that is negative when signed is past the end when unsigned, and the others have the
same value both ways. -/
theorem hostInBounds_toInt {c : Config} (hc : c.wf = true) (a : Word) (n : Nat) :
    hostInBounds c a.toInt n = inBounds c a n := by
  obtain ⟨-, -, hmax⟩ := c.wf_iff.1 hc
  rw [Bool.eq_iff_iff, hostInBounds_iff, inBounds_iff, BitVec.toInt_eq_toNat_cond]
  split <;> omega

/-- R35: both of the source's tests pass, and the bytes are read as a signed integer of their width. -/
theorem localRead_of_inside {s : State} {address : Int} {w : Width} (h0 : 0 ≤ address)
    (hend : address + w.bytes ≤ s.cfg.memSize) :
    localRead s address w = .ok ((Memory.readLE s.mem address.toNat w).setWidth (8 * w.bytes)).toInt :=
  if_pos ((hostInBounds_iff _ _ _).2 ⟨h0, hend⟩)

theorem localRead_of_outside {s : State} {address : Int} {w : Width}
    (h : address < 0 ∨ (s.cfg.memSize : Int) < address + w.bytes) :
    localRead s address w = .error (.outOfBounds address w.bytes) :=
  if_neg fun hin => by rw [hostInBounds_iff] at hin; omega

/-! ## MemWrite (R39) -/

theorem memWrite_eq_ok {s : State} {a : Word} {w : Width} {v : Word} {m : Memory} :
    memWrite s a w v = .ok m ↔ a.toNat + w.bytes ≤ s.cfg.memSize ∧ m = Memory.writeLE s.mem a w v := by
  unfold memWrite
  split
  · next h => rw [inBounds_iff] at h; simp [h, eq_comm]
  · next h => rw [inBounds_iff] at h; simp [h]

theorem memWrite_eq_error {s : State} {a : Word} {w : Width} {v : Word} {f : Fault} :
    memWrite s a w v = .error f ↔ ¬ a.toNat + w.bytes ≤ s.cfg.memSize ∧ f = .outOfBounds a w.bytes := by
  unfold memWrite
  split
  · next h => rw [inBounds_iff] at h; simp [h]
  · next h => rw [inBounds_iff] at h; simp [h, eq_comm]

/-- Byte `k` of a value is its bits `[8k+7:8k]` (R40). -/
theorem getElem_bytesLE (v : Word) (w : Width) {k : Nat} (hk : k < (bytesLE v w).length) :
    (bytesLE v w)[k] = v.extractLsb' (8 * k) 8 := by
  rw [bytesLE_length] at hk
  cases w <;> simp only [Width.bytes] at hk <;> interval_cases k <;> rfl

/-- Each byte of a store is the byte of the value in the same place (R39). -/
theorem Memory.get_writeLE_add (m : Memory) (a : Word) {w : Width} (v : Word) {k : Nat} (hk : k < w.bytes) :
    Memory.get (Memory.writeLE m a w v) (a.toNat + k) = v.extractLsb' (8 * k) 8 := by
  rw [Memory.writeLE, Memory.get_writeBytes, dif_pos (by simpa using hk), getElem_bytesLE, Nat.add_sub_cancel_left]

/-! ## The statements -/

/-- Settles O49: the two tests agree because `MEM_SIZE < 2^31`; every access answers as its test says. -/
theorem boundsVerdictsAgree : Obligations.BoundsVerdictsAgree := by
  intro c a w hc
  obtain ⟨-, hmin, -⟩ := c.wf_iff.1 hc
  refine ⟨inBounds_iff c a w.bytes, ?_, hostInBounds_toInt hc a w.bytes, ?_, ?_⟩
  · rw [← hostInBounds_toInt hc, ← Bool.not_eq_true, hostInBounds_iff]; omega
  · rintro s rfl h
    have hout := Nat.not_le.2 ((inBounds_eq_false_iff _ _ _).1 h)
    exact ⟨memRead_eq_error.2 ⟨hout, rfl⟩, fun v => memWrite_eq_error.2 ⟨hout, rfl⟩⟩
  · rintro s rfl
    have hlast : (s.cfg.memSize : Int) - 1 + Width.byte.bytes ≤ s.cfg.memSize := by simp [Width.bytes]
    exact ⟨localRead_of_outside (.inr (by simp [Width.bytes])), ⟨_, localRead_of_outside (.inl (by decide))⟩,
      ⟨_, localRead_of_inside (by omega) hlast⟩⟩

/-- Settles O51: the memory given is `Memory.writeLE`'s, whose bytes are known inside the access and outside it. -/
theorem memWriteIsLittleEndian : Obligations.MemWriteIsLittleEndian := by
  intro s a w v
  refine ⟨fun hin => ⟨_, memWrite_eq_ok.2 ⟨hin, rfl⟩, fun k hk b hb => ?_, Memory.get_writeLE_other s.mem a w v⟩,
    fun hout => memWrite_eq_error.2 ⟨Nat.not_le.2 hout, rfl⟩⟩
  simp [Memory.get_writeLE_add s.mem a v hk, hb]

end Sys2Proof.Machine

/-! SUPPORT. The fields and the immediates of a word, what the decoder answers for each major opcode and which words it rejects,
its agreement with the opcode table, and with them the statements of 30_encoding.md. -/

namespace Sys2Proof

/-! ## The fields of a word (R54) -/

/-- A field of a word, as arithmetic on the word's value. -/
theorem toNat_extractLsb'_eq_div_mod (w : Word) (start len : Nat) :
    (w.extractLsb' start len).toNat = w.toNat / 2 ^ start % 2 ^ len := by
  rw [BitVec.extractLsb'_toNat, Nat.shiftRight_eq_div_pow]

/-- The opcode starts at bit 0. -/
theorem toNat_opcodeOf (w : Word) : (opcodeOf w).toNat = w.toNat % 2 ^ 7 := by
  rw [opcodeOf, toNat_extractLsb'_eq_div_mod, Nat.pow_zero, Nat.div_one]

/-- funct7 reaches the top of the word, so nothing above it is cut off. -/
theorem toNat_funct7Of (w : Word) : (funct7Of w).toNat = w.toNat / 2 ^ 25 := by
  rw [funct7Of, toNat_extractLsb'_eq_div_mod]; omega

/-! ## The immediates (R61 to R65) -/

/-- Sign extension repeats the top bit. -/
theorem getLsbD_signExtend_min {n : Nat} (v : BitVec n) {k : Nat} (hk : k < 32) :
    (v.signExtend 32).getLsbD k = v.getLsbD (min k (n - 1)) := by
  rw [BitVec.getLsbD_signExtend, BitVec.msb_eq_getLsbD_last, decide_eq_true hk, Bool.true_and]
  split
  · rw [min_eq_left (by omega)]
  · rw [min_eq_right (by omega)]

section
variable (w : Word) {k : Nat}

/-! Bit `k` of an assembled immediate stands in the slice that `k`, or the sign bit's place above it, falls in. -/

theorem immI_getLsbD (hk : k < 32) :
    (immI w).getLsbD k = if k < 11 then w.getLsbD (k + 20) else w.getLsbD 31 := by
  rw [immI, getLsbD_signExtend_min _ hk, BitVec.getLsbD_extractLsb', decide_eq_true (by omega), Bool.true_and]
  split <;> congr 1 <;> omega

theorem immS_getLsbD (hk : k < 32) : (immS w).getLsbD k =
    if k < 5 then w.getLsbD (k + 7) else if k < 11 then w.getLsbD (k + 20) else w.getLsbD 31 := by
  simp only [immS, getLsbD_signExtend_min _ hk, BitVec.getLsbD_append, BitVec.getLsbD_extractLsb']
  grind

theorem immB_getLsbD (hk : k < 32) : (immB w).getLsbD k =
    if k = 0 then false else if k < 5 then w.getLsbD (k + 7) else if k < 11 then w.getLsbD (k + 20)
      else if k = 11 then w.getLsbD 7 else w.getLsbD 31 := by
  simp only [immB, getLsbD_signExtend_min _ hk, BitVec.getLsbD_append, BitVec.getLsbD_extractLsb']
  obtain h | h := le_total k 12
  · rw [min_eq_left h]; grind
  · rw [min_eq_right h]; grind

theorem immU_getLsbD (hk : k < 32) : (immU w).getLsbD k = if k < 12 then false else w.getLsbD k := by
  change BitVec.getLsbD (w := 20 + 12) (w.extractLsb' 12 20 ++ 0#12) k = _
  simp only [BitVec.getLsbD_append, BitVec.getLsbD_extractLsb']
  grind

theorem immJ_getLsbD (hk : k < 32) : (immJ w).getLsbD k =
    if k = 0 then false else if k < 11 then w.getLsbD (k + 20) else if k = 11 then w.getLsbD 20
      else if k < 20 then w.getLsbD k else w.getLsbD 31 := by
  simp only [immJ, getLsbD_signExtend_min _ hk, BitVec.getLsbD_append, BitVec.getLsbD_extractLsb']
  obtain h | h := le_total k 20
  · rw [min_eq_left h]; grind
  · rw [min_eq_right h]; grind

end

/-- A value whose lowest bit is clear is even. -/
theorem toNat_even_of_getLsbD_zero {v : Word} (h : v.getLsbD 0 = false) : v.toNat % 2 = 0 := by
  simpa [BitVec.getLsbD, Nat.testBit_zero] using h

/-- Sign extension keeps the signed value, so the range is the narrow value's. -/
theorem toInt_signExtend_range {n : Nat} (hn : n ≤ 32) (v : BitVec n) :
    -2 ^ (n - 1) ≤ (v.signExtend 32).toInt ∧ (v.signExtend 32).toInt < 2 ^ (n - 1) := by
  rw [BitVec.toInt_signExtend_of_le hn]
  exact ⟨v.le_toInt, v.toInt_lt⟩

theorem immFits12_signExtend (v : BitVec 12) : immFits12 (v.signExtend 32) = true := by
  obtain ⟨hlo, hhi⟩ := toInt_signExtend_range (by decide) v
  simp only [immFits12, Bool.and_eq_true, decide_eq_true_eq]
  omega

/-- An even value below 4096 is at most 4094. -/
theorem immFitsB_signExtend (v : BitVec 13) (h : (v.signExtend 32).getLsbD 0 = false) :
    immFitsB (v.signExtend 32) = true := by
  obtain ⟨hlo, hhi⟩ := toInt_signExtend_range (by decide) v
  have heven := toNat_even_of_getLsbD_zero h
  simp only [immFitsB, Bool.and_eq_true, decide_eq_true_eq, beq_iff_eq]
  rw [BitVec.toInt_eq_toNat_cond] at hlo hhi ⊢
  omega

theorem immFitsJ_signExtend (v : BitVec 21) (h : (v.signExtend 32).getLsbD 0 = false) :
    immFitsJ (v.signExtend 32) = true := by
  obtain ⟨hlo, hhi⟩ := toInt_signExtend_range (by decide) v
  have heven := toNat_even_of_getLsbD_zero h
  simp only [immFitsJ, Bool.and_eq_true, decide_eq_true_eq, beq_iff_eq]
  rw [BitVec.toInt_eq_toNat_cond] at hlo hhi ⊢
  omega

theorem immFits12_immI (w : Word) : immFits12 (immI w) = true := immFits12_signExtend _

theorem immFits12_immS (w : Word) : immFits12 (immS w) = true := immFits12_signExtend _

theorem immFitsB_immB (w : Word) : immFitsB (immB w) = true :=
  immFitsB_signExtend _ ((immB_getLsbD w (k := 0) (by decide)).trans (if_pos rfl))

theorem immFitsU_immU (w : Word) : immFitsU (immU w) = true := by
  rw [immFitsU, beq_iff_eq, immU, BitVec.toNat_append]
  simp [Nat.shiftLeft_eq]

theorem immFitsJ_immJ (w : Word) : immFitsJ (immJ w) = true :=
  immFitsJ_signExtend _ ((immJ_getLsbD w (k := 0) (by decide)).trans (if_pos rfl))

/-! ## The decoder by opcode and funct7 (R68, R69) -/

section
variable {extM : Bool} {w : Word}

theorem decode_lui (h : opcodeOf w = 0b0110111#7) : decode extM w = .ok (.lui (rdOf w) (immU w)) := by rw [decode, h]; rfl

theorem decode_auipc (h : opcodeOf w = 0b0010111#7) : decode extM w = .ok (.auipc (rdOf w) (immU w)) := by
  rw [decode, h]; rfl

theorem decode_jal (h : opcodeOf w = 0b1101111#7) : decode extM w = .ok (.jal (rdOf w) (immJ w)) := by rw [decode, h]; rfl

theorem decode_eq_decodeJalr (h : opcodeOf w = 0b1100111#7) : decode extM w = decodeJalr w := by rw [decode, h]; rfl

theorem decode_eq_decodeBranch (h : opcodeOf w = 0b1100011#7) : decode extM w = decodeBranch w := by rw [decode, h]; rfl

theorem decode_eq_decodeLoad (h : opcodeOf w = 0b0000011#7) : decode extM w = decodeLoad w := by rw [decode, h]; rfl

theorem decode_eq_decodeStore (h : opcodeOf w = 0b0100011#7) : decode extM w = decodeStore w := by rw [decode, h]; rfl

theorem decode_eq_decodeOpImm (h : opcodeOf w = 0b0010011#7) : decode extM w = decodeOpImm w := by rw [decode, h]; rfl

theorem decode_eq_decodeOp (h : opcodeOf w = 0b0110011#7) : decode extM w = decodeOp extM w := by rw [decode, h]; rfl

theorem decode_eq_decodeMiscMem (h : opcodeOf w = 0b0001111#7) : decode extM w = decodeMiscMem w := by rw [decode, h]; rfl

theorem decodeOp_alt (h : funct7Of w = 0b0100000#7) : decodeOp extM w = decodeOpAlt w := by rw [decodeOp, h]; rfl

theorem decodeOp_mulDiv (h : funct7Of w = 0b0000001#7) : decodeOp true w = .ok (decodeOpMulDiv w) := by
  rw [decodeOp, h]; rfl

theorem decodeOp_extMAbsent (h : funct7Of w = 0b0000001#7) : decodeOp false w = .error .extMAbsent := by
  rw [decodeOp, h]; rfl

/-! ## Words that are rejected (R70, R71, R73, R139, R140) -/

theorem decode_unknownOpcode (h : opcodeOf w ∉ [0b0110111#7, 0b0010111#7, 0b1101111#7, 0b1100111#7, 0b1100011#7,
    0b0000011#7, 0b0100011#7, 0b0010011#7, 0b0110011#7, 0b0001111#7]) : decode extM w = .error .unknownOpcode := by
  unfold decode
  split
  case h_11 => rfl
  all_goals next hop => rw [hop] at h; exact absurd (by decide) h

/-- The custom opcodes are none of R68's (R73). -/
theorem decode_custom (h : opcodeOf w ∈ [0b0001011#7, 0b0101011#7, 0b1011011#7, 0b1111011#7]) :
    decode extM w = .error .unknownOpcode :=
  have hdisjoint : ∀ c ∈ [0b0001011#7, 0b0101011#7, 0b1011011#7, 0b1111011#7], c ∉ [0b0110111#7, 0b0010111#7,
      0b1101111#7, 0b1100111#7, 0b1100011#7, 0b0000011#7, 0b0100011#7, 0b0010011#7, 0b0110011#7, 0b0001111#7] := by decide
  decode_unknownOpcode (hdisjoint _ h)

/-- SYSTEM is none of them either (R140). -/
theorem decode_system (h : opcodeOf w = 0b1110011#7) : decode extM w = .error .unknownOpcode :=
  decode_unknownOpcode (by rw [h]; decide)

theorem decodeJalr_unlisted (h : funct3Of w ≠ 0b000#3) : decodeJalr w = .error .unlistedFunct := by
  unfold decodeJalr
  split
  · contradiction
  · rfl

theorem decodeMiscMem_unlisted (h : funct3Of w ≠ 0b000#3) : decodeMiscMem w = .error .unlistedFunct := by
  unfold decodeMiscMem
  split
  · contradiction
  · rfl

theorem decodeBranch_unlisted (h : funct3Of w ∈ [0b010#3, 0b011#3]) : decodeBranch w = .error .unlistedFunct := by
  unfold decodeBranch
  split
  case h_7 => rfl
  all_goals next h3 => rw [h3] at h; exact absurd h (by decide)

theorem decodeLoad_unlisted (h : funct3Of w ∈ [0b011#3, 0b110#3, 0b111#3]) : decodeLoad w = .error .unlistedFunct := by
  unfold decodeLoad
  split
  case h_6 => rfl
  all_goals next h3 => rw [h3] at h; exact absurd h (by decide)

theorem decodeStore_unlisted (h : funct3Of w ∈ [0b011#3, 0b100#3, 0b101#3, 0b110#3, 0b111#3]) :
    decodeStore w = .error .unlistedFunct := by
  unfold decodeStore
  split
  case h_4 => rfl
  all_goals next h3 => rw [h3] at h; exact absurd h (by decide)

/-- The hypotheses leave the match on funct7 its last branch alone; so also in the next lemma. -/
theorem decodeOpImm_unlisted_left (h3 : funct3Of w = 0b001#3) (h7 : funct7Of w ≠ 0b0000000#7) :
    decodeOpImm w = .error .unlistedFunct := by
  simp only [decodeOpImm, h3]

theorem decodeOpImm_unlisted_right (h3 : funct3Of w = 0b101#3) (h0 : funct7Of w ≠ 0b0000000#7)
    (h1 : funct7Of w ≠ 0b0100000#7) : decodeOpImm w = .error .unlistedFunct := by
  simp only [decodeOpImm, h3]

theorem decodeOpAlt_unlisted (h0 : funct3Of w ≠ 0b000#3) (h5 : funct3Of w ≠ 0b101#3) :
    decodeOpAlt w = .error .unlistedFunct := by
  unfold decodeOpAlt
  split
  · contradiction
  · contradiction
  · rfl

theorem decodeOp_unlisted (h0 : funct7Of w ≠ 0b0000000#7) (h1 : funct7Of w ≠ 0b0100000#7)
    (h2 : funct7Of w ≠ 0b0000001#7) : decodeOp extM w = .error .unlistedFunct := by
  unfold decodeOp
  split
  · contradiction
  · contradiction
  · contradiction
  · rfl

end

/-! ## Every decoded word matches a row that is present (R69) -/

namespace Laws.TableRow

/-- The family's statement holds of every instruction. -/
theorem statement : ∀ i, Statement i
  | .lui .. => lui .. | .auipc .. => auipc .. | .jal .. => jal .. | .jalr .. => jalr .. | .beq .. => beq ..
  | .bne .. => bne .. | .blt .. => blt .. | .bge .. => bge .. | .bltu .. => bltu .. | .bgeu .. => bgeu ..
  | .lb .. => lb .. | .lh .. => lh .. | .lw .. => lw .. | .lbu .. => lbu .. | .lhu .. => lhu .. | .sb .. => sb ..
  | .sh .. => sh .. | .sw .. => sw .. | .addi .. => addi .. | .slti .. => slti .. | .sltiu .. => sltiu ..
  | .xori .. => xori .. | .ori .. => ori .. | .andi .. => andi .. | .slli .. => slli .. | .srli .. => srli ..
  | .srai .. => srai .. | .add .. => add .. | .sub .. => sub .. | .sll .. => sll .. | .slt .. => slt ..
  | .sltu .. => sltu .. | .xor .. => xor .. | .srl .. => srl .. | .sra .. => sra .. | .or .. => or ..
  | .and .. => and .. | .fence .. => fence .. | .mul .. => mul .. | .mulh .. => mulh .. | .mulhsu .. => mulhsu ..
  | .mulhu .. => mulhu .. | .div .. => div .. | .divu .. => divu .. | .rem .. => rem .. | .remu .. => remu ..

end Laws.TableRow

theorem encode_fields_of_needsM {i : Instr} (h : i.needsM = true) :
    opcodeOf (encode i) = 0b0110011#7 ∧ funct7Of (encode i) = 0b0000001#7 := by
  cases i with
  | mul | mulh | mulhsu | mulhu | div | divu | rem | remu => exact ⟨opcodeOf_encodeR .., funct7Of_encodeR ..⟩
  | _ => cases h

/-- Without `EXT_M` the words of the RV32M group are rejected, so no instruction of the group is decoded. -/
theorem available_of_decode {extM : Bool} {w : Word} {i : Instr} (h : decode extM w = .ok i) :
    i.available extM = true := by
  cases extM with
  | true => exact Bool.or_true _
  | false =>
    by_contra hm
    obtain ⟨hop, h7⟩ := encode_fields_of_needsM (i := i) (by simpa [Instr.available] using hm)
    rw [encode_of_decode h] at hop h7
    rw [decode_eq_decodeOp hop, decodeOp_extMAbsent h7] at h
    cases h

/-- A decoded word is its instruction's own, which matches the row with the instruction's name. -/
theorem decode_of_unmatched {extM : Bool} {w : Word} (h : Claims.Unmatched extM w) : ∃ r, decode extM w = .error r := by
  cases hd : decode extM w with
  | error r => exact ⟨r, rfl⟩
  | ok i =>
    obtain ⟨row, hrow, -, -, hhits, hM⟩ := Laws.TableRow.statement i
    rw [encode_of_decode hd] at hhits
    obtain ⟨hneeds, rfl⟩ := h row hrow hhits
    have havail := available_of_decode hd
    simp [Instr.available, ← hM, hneeds] at havail

/-! ## Every word that matches a present row decodes (R69) -/

section
variable {row : OpcodeRow} {w : Word}

/-! A field that the mask covers is the row's own. -/

theorem opcodeOf_of_hits (hm : opcodeOf row.mask = BitVec.allOnes 7) (h : row.hits w = true) :
    opcodeOf w = opcodeOf row.bits := by
  rw [← eq_of_beq h, opcodeOf, opcodeOf, BitVec.extractLsb'_and, ← opcodeOf, ← opcodeOf, hm, BitVec.and_allOnes]

theorem funct3Of_of_hits (hm : funct3Of row.mask = BitVec.allOnes 3) (h : row.hits w = true) :
    funct3Of w = funct3Of row.bits := by
  rw [← eq_of_beq h, funct3Of, funct3Of, BitVec.extractLsb'_and, ← funct3Of, ← funct3Of, hm, BitVec.and_allOnes]

theorem funct7Of_of_hits (hm : funct7Of row.mask = BitVec.allOnes 7) (h : row.hits w = true) :
    funct7Of w = funct7Of row.bits := by
  rw [← eq_of_beq h, funct7Of, funct7Of, BitVec.extractLsb'_and, ← funct7Of, ← funct7Of, hm, BitVec.and_allOnes]

end

/-- Every word that matches the row decodes to the row's instruction wherever the row is present. -/
def RowDecodes (row : OpcodeRow) : Prop :=
  ∀ extM w, row.hits w = true → (row.needsM = true → extM = true) →
    ∃ i, decode extM w = .ok i ∧ i.mnemonic = row.mnemonic ∧ i.iType = row.format ∧ i.needsM = row.needsM

theorem rowDecodes_tableU : ∀ row ∈ tableU, RowDecodes row := by
  intro row hrow extM w h _
  have hop := opcodeOf_of_hits (by fin_cases hrow <;> rfl) h
  fin_cases hrow
  · exact ⟨_, decode_lui hop, rfl, rfl, rfl⟩
  · exact ⟨_, decode_auipc hop, rfl, rfl, rfl⟩
  · exact ⟨_, decode_jal hop, rfl, rfl, rfl⟩

/-- JALR is the first row, the branches are the others. -/
theorem rowDecodes_tableControl : ∀ row ∈ tableControl, RowDecodes row := by
  intro row hrow extM w h _
  have hop := opcodeOf_of_hits (by fin_cases hrow <;> rfl) h
  have h3 := funct3Of_of_hits (by fin_cases hrow <;> rfl) h
  fin_cases hrow
  · exact ⟨_, by rw [decode_eq_decodeJalr hop, decodeJalr, h3]; rfl, rfl, rfl, rfl⟩
  all_goals exact ⟨_, by rw [decode_eq_decodeBranch hop, decodeBranch, h3]; rfl, rfl, rfl, rfl⟩

/-- The first five rows are the loads, the next three the stores, the last is FENCE. -/
theorem rowDecodes_tableMemory : ∀ row ∈ tableMemory, RowDecodes row := by
  intro row hrow extM w h _
  have hop := opcodeOf_of_hits (by fin_cases hrow <;> rfl) h
  have h3 := funct3Of_of_hits (by fin_cases hrow <;> rfl) h
  fin_cases hrow
  iterate 5 exact ⟨_, by rw [decode_eq_decodeLoad hop, decodeLoad, h3]; rfl, rfl, rfl, rfl⟩
  iterate 3 exact ⟨_, by rw [decode_eq_decodeStore hop, decodeStore, h3]; rfl, rfl, rfl, rfl⟩
  · exact ⟨_, by rw [decode_eq_decodeMiscMem hop, decodeMiscMem, h3]; rfl, rfl, rfl, rfl⟩

/-- The first six rows fix no funct7; the others are the shifts, whose funct7 is fixed too (R66). -/
theorem rowDecodes_tableOpImm : ∀ row ∈ tableOpImm, RowDecodes row := by
  intro row hrow extM w h _
  have hop : opcodeOf w = 0b0010011#7 := (opcodeOf_of_hits (by fin_cases hrow <;> rfl) h).trans (by fin_cases hrow <;> rfl)
  have h3 := funct3Of_of_hits (by fin_cases hrow <;> rfl) h
  rw [decode_eq_decodeOpImm hop, decodeOpImm, h3]
  fin_cases hrow
  iterate 6 exact ⟨_, rfl, rfl, rfl, rfl⟩
  all_goals rw [funct7Of_of_hits rfl h]; exact ⟨_, rfl, rfl, rfl, rfl⟩

theorem rowDecodes_tableOp : ∀ row ∈ tableOp, RowDecodes row := by
  intro row hrow extM w h _
  have hop : opcodeOf w = 0b0110011#7 := (opcodeOf_of_hits (by fin_cases hrow <;> rfl) h).trans (by fin_cases hrow <;> rfl)
  have h3 := funct3Of_of_hits (by fin_cases hrow <;> rfl) h
  have h7 := funct7Of_of_hits (by fin_cases hrow <;> rfl) h
  rw [decode_eq_decodeOp hop, decodeOp, decodeOpBase, decodeOpAlt, h3, h7]
  fin_cases hrow <;> exact ⟨_, rfl, rfl, rfl, rfl⟩

theorem rowDecodes_tableMulDiv : ∀ row ∈ tableMulDiv, RowDecodes row := by
  intro row hrow extM w h hM
  have hop : opcodeOf w = 0b0110011#7 := (opcodeOf_of_hits (by fin_cases hrow <;> rfl) h).trans (by fin_cases hrow <;> rfl)
  have h3 := funct3Of_of_hits (by fin_cases hrow <;> rfl) h
  have h7 : funct7Of w = 0b0000001#7 := (funct7Of_of_hits (by fin_cases hrow <;> rfl) h).trans (by fin_cases hrow <;> rfl)
  obtain rfl : extM = true := hM (by fin_cases hrow <;> rfl)
  rw [decode_eq_decodeOp hop, decodeOp_mulDiv h7, decodeOpMulDiv, h3]
  fin_cases hrow <;> exact ⟨_, rfl, rfl, rfl, rfl⟩

theorem rowDecodes : ∀ row ∈ opcodeTable, RowDecodes row := by
  simp only [opcodeTable, List.forall_mem_append]
  exact ⟨⟨⟨⟨⟨rowDecodes_tableU, rowDecodes_tableControl⟩, rowDecodes_tableMemory⟩, rowDecodes_tableOpImm⟩,
    rowDecodes_tableOp⟩, rowDecodes_tableMulDiv⟩

theorem opcodeTable_mnemonics_nodup : (opcodeTable.map OpcodeRow.mnemonic).Nodup := by decide

/-- The decoder is a function, and no two rows have one name. -/
theorem row_eq_of_hits {w : Word} {row row' : OpcodeRow} (hrow : row ∈ opcodeTable) (hrow' : row' ∈ opcodeTable)
    (h : row.hits w = true) (h' : row'.hits w = true) : row = row' := by
  obtain ⟨i, hi, hname, -, -⟩ := rowDecodes row hrow true w h fun _ => rfl
  obtain ⟨i', hi', hname', -, -⟩ := rowDecodes row' hrow' true w h' fun _ => rfl
  obtain rfl : i = i' := Except.ok.inj (hi.symm.trans hi')
  exact List.inj_on_of_nodup_map opcodeTable_mnemonics_nodup hrow hrow' (hname.symm.trans hname')

/-! ## The statements about words -/

/-- Settles O7: the decoder accepts every present row and only those, and it can answer one row's name only. -/
theorem decodeFollowsTheOpcodeTable : Obligations.DecodeFollowsTheOpcodeTable :=
  ⟨rfl, fun extM w row hrow => rowDecodes row hrow extM w, fun _ _ => decode_of_unmatched,
    fun _ _ hrow _ hrow' => row_eq_of_hits hrow hrow'⟩

/-- Settles O10: every field is a slice of the word. -/
theorem fieldsStandAtTheirPositions : Obligations.FieldsStandAtTheirPositions := fun w =>
  ⟨toNat_opcodeOf w, toNat_extractLsb'_eq_div_mod w 7 5, toNat_extractLsb'_eq_div_mod w 12 3,
    toNat_extractLsb'_eq_div_mod w 15 5, toNat_extractLsb'_eq_div_mod w 20 5, toNat_funct7Of w,
    toNat_extractLsb'_eq_div_mod w 20 5⟩

/-- Settles O11: one lemma for the bits and one for the range of each immediate. -/
theorem immediatesAreAssembledBitByBit : Obligations.ImmediatesAreAssembledBitByBit :=
  ⟨fun w _ hk => ⟨immI_getLsbD w hk, immS_getLsbD w hk, immB_getLsbD w hk, immU_getLsbD w hk, immJ_getLsbD w hk⟩,
    fun w => ⟨immFits12_immI w, immFits12_immS w, immFitsB_immB w, immFitsU_immU w, immFitsJ_immJ w⟩⟩

end Sys2Proof

namespace Sys2Proof.Machine

/-! ## The statements about steps -/

/-- A fetched word that the decoder rejects ends the step with its error, and the driver keeps the state (R70, R144). -/
theorem step_of_rejected {s : State} {w : Word} {r : Reject} (hw : fetch s = .ok w) (hr : decode s.cfg.extM w = .error r) :
    step s = .fault (.decodeError s.pc w) ∧ (stepCall s).2 = s := by
  have hstep : step s = .fault (.decodeError s.pc w) := by
    rw [step, fetchDecode_eq_error.2 (.inr ⟨w, r, hw, hr, rfl⟩)]; rfl
  exact ⟨hstep, by rw [stepCall_of_fault hstep]⟩

/-- Settles O8: the decoder rejects a word that matches no present row. -/
theorem unmatchedWordsRaiseDecodeError : Obligations.UnmatchedWordsRaiseDecodeError := by
  intro s w hw h
  obtain ⟨r, hr⟩ := decode_of_unmatched h
  exact step_of_rejected hw hr

/-- Settles O9: in each case the decoder of the major opcode, or of all opcodes, rejects the word. -/
theorem reservedCustomAndSystemWordsRaiseDecodeError : Obligations.ReservedCustomAndSystemWordsRaiseDecodeError := by
  intro s w hw h
  rcases h with ⟨hop, h3⟩ | ⟨hop, h3⟩ | ⟨hop, h3⟩ | ⟨hop, h3⟩ | ⟨hop, h3, h7⟩ | ⟨hop, h3, h7, h7'⟩ |
    ⟨hop, h0, h1, h2⟩ | ⟨hop, h7, h3, h3'⟩ | ⟨hop, h7, hext⟩ | ⟨hop, h3⟩ | hcustom | hsystem
  · exact step_of_rejected hw ((decode_eq_decodeJalr hop).trans (decodeJalr_unlisted h3))
  · exact step_of_rejected hw ((decode_eq_decodeBranch hop).trans (decodeBranch_unlisted h3))
  · exact step_of_rejected hw ((decode_eq_decodeLoad hop).trans (decodeLoad_unlisted h3))
  · exact step_of_rejected hw ((decode_eq_decodeStore hop).trans (decodeStore_unlisted h3))
  · exact step_of_rejected hw ((decode_eq_decodeOpImm hop).trans (decodeOpImm_unlisted_left h3 h7))
  · exact step_of_rejected hw ((decode_eq_decodeOpImm hop).trans (decodeOpImm_unlisted_right h3 h7 h7'))
  · exact step_of_rejected hw ((decode_eq_decodeOp hop).trans (decodeOp_unlisted h0 h1 h2))
  · exact step_of_rejected hw
      ((decode_eq_decodeOp hop).trans ((decodeOp_alt h7).trans (decodeOpAlt_unlisted h3 h3')))
  · exact step_of_rejected hw ((decode_eq_decodeOp hop).trans (hext ▸ decodeOp_extMAbsent h7))
  · exact step_of_rejected hw ((decode_eq_decodeMiscMem hop).trans (decodeMiscMem_unlisted h3))
  · exact step_of_rejected hw (decode_custom hcustom)
  · exact step_of_rejected hw (decode_system hsystem)

end Sys2Proof.Machine

/-! SUPPORT. Where each shared operation leaves `pc` when the instruction retires, and with it the statement of
40_execution_cycle.md about the next instruction. -/

namespace Sys2Proof.Machine

/-! ## The next `pc` (R82) -/

section
variable {i : Instr} {s t : State}

theorem pc_of_regEffect {rd : Reg} {v : Word} (h : finish i (regEffect s rd v) s = .next t) : t.pc = s.pc + 4 := by
  obtain ⟨e, he, rfl⟩ := finish_eq_next.1 h
  cases he
  exact retire_pc ..

theorem pc_of_loadEffect {a : Word} {w : Width} {ext : Word → Word} {rd : Reg}
    (h : finish i (loadEffect s a w ext rd) s = .next t) : t.pc = s.pc + 4 := by
  obtain ⟨e, he, rfl⟩ := finish_eq_next.1 h
  obtain ⟨-, rfl⟩ := loadEffect_eq_ok.1 he
  exact retire_pc ..

theorem pc_of_storeEffect {a : Word} {w : Width} {v : Word} (h : finish i (storeEffect s a w v) s = .next t) :
    t.pc = s.pc + 4 := by
  obtain ⟨e, he, rfl⟩ := finish_eq_next.1 h
  obtain ⟨-, rfl⟩ := storeEffect_eq_ok.1 he
  exact retire_pc ..

theorem pc_of_jumpEffect {rd : Reg} {target : Word} (h : finish i (jumpEffect s rd target) s = .next t) :
    t.pc = target := by
  obtain ⟨e, he, rfl⟩ := finish_eq_next.1 h
  obtain ⟨-, rfl⟩ := jumpEffect_eq_ok.1 he
  exact retire_pc ..

/-- The condition `P` is the statement's, `taken` the comparison the meaning computes. -/
theorem pc_of_branchEffect {taken : Bool} {target : Word} {P : Prop} [Decidable P] (hP : taken = true ↔ P)
    (h : finish i (branchEffect s taken target) s = .next t) : t.pc = if P then target else s.pc + 4 := by
  obtain ⟨e, he, rfl⟩ := finish_eq_next.1 h
  obtain ⟨htaken, -, rfl⟩ | ⟨hnot, rfl⟩ := branchEffect_eq_ok.1 he
  · rw [if_pos (hP.1 htaken), retire_pc]
  · rw [if_neg (by simp [← hP, hnot]), retire_pc]

theorem pc_of_fence {fm pred succ : BitVec 4} {rd rs1 : Reg} (h : exec (.fence fm pred succ rd rs1) s = .next t) :
    t.pc = s.pc + 4 := by
  obtain rfl := Host.Outcome.next.inj h
  exact retire_pc ..

end

/-! The comparisons that decide a branch (R10), as propositions. -/

theorem ltSigned_iff (a b : Word) : ltSigned a b = true ↔ a.toInt < b.toInt := decide_eq_true_iff

theorem not_ltSigned_iff (a b : Word) : (!ltSigned a b) = true ↔ b.toInt ≤ a.toInt := by simp [ltSigned]

theorem ltUnsigned_iff (a b : Word) : ltUnsigned a b = true ↔ a.toNat < b.toNat := decide_eq_true_iff

theorem not_ltUnsigned_iff (a b : Word) : (!ltUnsigned a b) = true ↔ b.toNat ≤ a.toNat := by simp [ltUnsigned]

/-- Settles O21: only a branch and a jump have an effect whose next `pc` is not the sequential one. -/
theorem nextPcIsTheSequenceOrTheTarget : Obligations.NextPcIsTheSequenceOrTheTarget := by
  intro i s t h
  cases i with
  | lui | auipc | addi | slti | sltiu | xori | ori | andi | slli | srli | srai | add | sub | sll | slt | sltu | xor
  | srl | sra | or | and | mul | mulh | mulhsu | mulhu | div | divu | rem | remu => exact pc_of_regEffect h
  | lb | lh | lw | lbu | lhu => exact pc_of_loadEffect h
  | sb | sh | sw => exact pc_of_storeEffect h
  | fence => exact pc_of_fence h
  | jal | jalr => exact pc_of_jumpEffect h
  | beq => exact pc_of_branchEffect beq_iff_eq h
  | bne => exact pc_of_branchEffect bne_iff_ne h
  | blt => exact pc_of_branchEffect (ltSigned_iff ..) h
  | bge => exact pc_of_branchEffect (not_ltSigned_iff ..) h
  | bltu => exact pc_of_branchEffect (ltUnsigned_iff ..) h
  | bgeu => exact pc_of_branchEffect (not_ltUnsigned_iff ..) h

end Sys2Proof.Machine

/-! SUPPORT. An instruction that writes one register, the decoding of OP-IMM and OP, the results of the integer operations as
arithmetic and bits, and with them the statements of 41_integer_alu.md. -/

namespace Sys2Proof

/-! ## What OP-IMM and OP decode to (R66, R69) -/

section
variable {funct3 : BitVec 3} {funct7 : BitVec 7} {mk : Word → Instr}

theorem decodeOp_base {extM : Bool} {w : Word} (h : funct7Of w = 0b0000000#7) : decodeOp extM w = .ok (decodeOpBase w) := by
  rw [decodeOp, h]; rfl

theorem decodesF3_opImm (h : ∀ w, funct3Of w = funct3 → decodeOpImm w = .ok (mk w)) :
    Claims.DecodesF3 0b0010011#7 funct3 mk :=
  fun _ w hop h3 => (decode_eq_decodeOpImm hop).trans (h w h3)

theorem decodesF7_opImm (h : ∀ w, funct3Of w = funct3 → funct7Of w = funct7 → decodeOpImm w = .ok (mk w)) :
    Claims.DecodesF7 0b0010011#7 funct3 funct7 mk :=
  fun _ w hop h3 h7 => (decode_eq_decodeOpImm hop).trans (h w h3 h7)

theorem decodesF7_opBase (h : ∀ w, funct3Of w = funct3 → decodeOpBase w = mk w) :
    Claims.DecodesF7 0b0110011#7 funct3 0b0000000#7 mk :=
  fun _ w hop h3 h7 => (decode_eq_decodeOp hop).trans ((decodeOp_base h7).trans (congrArg _ (h w h3)))

theorem decodesF7_opAlt (h : ∀ w, funct3Of w = funct3 → decodeOpAlt w = .ok (mk w)) :
    Claims.DecodesF7 0b0110011#7 funct3 0b0100000#7 mk :=
  fun _ w hop h3 h7 => (decode_eq_decodeOp hop).trans ((decodeOp_alt h7).trans (h w h3))

end

end Sys2Proof

namespace Sys2Proof.Machine

/-! ## An instruction whose only effect is one register (R82, R83) -/

/-- The state it retires to has `v` in `rd`, and all else as `WritesRd` asks, whatever `v` is. -/
theorem writesRd_of_regEffect {i : Instr} {rd : Reg} {s : State} {v : Word} {P : Word → Prop}
    (hexec : exec i s = finish i (regEffect s rd v) s) (hv : P v) : Claims.WritesRd i rd s P := by
  refine ⟨_, hexec, fun h0 => ?_, ⟨fun r hr => ?_, State.x_zero _⟩, fun a => ?_, retire_pc .., retire_pcLast ..,
    retire_instr .., retire_cfg ..⟩
  · simpa [retire_x, h0] using hv
  · simp [retire_x, hr]
  · rw [retire_mem]

/-! ## The results as arithmetic (R9, R10) -/

/-- The written difference adds 2^32 before it subtracts, the library's subtracts first. -/
theorem toNat_sub_wraps (a b : Word) : (a - b).toNat = (2 ^ 32 + a.toNat - b.toNat) % 2 ^ 32 := by
  rw [BitVec.toNat_sub]; omega

/-- `bool(c)` is 1 or 0 as the proposition that `c` decides. -/
theorem toNat_boolWord {c : Bool} {P : Prop} [Decidable P] (hP : c = true ↔ P) :
    (boolWord c).toNat = if P then 1 else 0 := by
  by_cases h : P
  · rw [if_pos h, hP.2 h]; rfl
  · rw [if_neg h, Bool.eq_false_iff.2 (mt hP.1 h)]; rfl

theorem toNat_shiftLeft_eq_mul (a : Word) (n : Nat) : (a <<< n).toNat = a.toNat * 2 ^ n % 2 ^ 32 := by
  rw [BitVec.toNat_shiftLeft, Nat.shiftLeft_eq]

theorem toNat_ushiftRight_eq_div (a : Word) (n : Nat) : (a >>> n).toNat = a.toNat / 2 ^ n := by
  rw [BitVec.toNat_ushiftRight, Nat.shiftRight_eq_div_pow]

theorem toInt_sshiftRight_eq_div (a : Word) (n : Nat) : (a.sshiftRight n).toInt = a.toInt / 2 ^ n := by
  rw [BitVec.toInt_sshiftRight, Int.shiftRight_eq_div_pow]; norm_cast

/-- R87. -/
theorem shiftAmount_eq_mod (v : Word) : shiftAmount v = v.toNat % 32 := by
  rw [shiftAmount, toNat_extractLsb'_eq_div_mod, Nat.pow_zero, Nat.div_one]; rfl

/-! ## The statements -/

/-- Settles O25: the values are the library's sums and difference of words. -/
theorem addAndSubtractWrap : Obligations.AddAndSubtractWrap :=
  ⟨fun _ _ _ _ => writesRd_of_regEffect rfl (BitVec.toNat_add ..),
    fun _ _ _ _ => writesRd_of_regEffect rfl (BitVec.toNat_add ..),
    fun _ _ _ _ => writesRd_of_regEffect rfl (toNat_sub_wraps ..),
    decodesF3_opImm fun _ h3 => by rw [decodeOpImm, h3]; rfl,
    decodesF7_opBase fun _ h3 => by rw [decodeOpBase, h3]; rfl,
    decodesF7_opAlt fun _ h3 => by rw [decodeOpAlt, h3]; rfl⟩

/-- Settles O26: `bool` of each comparison is 1 or 0 as the comparison's proposition holds. -/
theorem setLessThanWritesOneOrZero : Obligations.SetLessThanWritesOneOrZero :=
  ⟨fun _ _ _ _ => writesRd_of_regEffect rfl (toNat_boolWord (ltSigned_iff ..)),
    fun _ _ _ _ => writesRd_of_regEffect rfl (toNat_boolWord (ltUnsigned_iff ..)),
    fun _ _ _ _ => writesRd_of_regEffect rfl (toNat_boolWord (ltSigned_iff ..)),
    fun _ _ _ _ => writesRd_of_regEffect rfl (toNat_boolWord (ltUnsigned_iff ..)),
    decodesF3_opImm fun _ h3 => by rw [decodeOpImm, h3]; rfl,
    decodesF3_opImm fun _ h3 => by rw [decodeOpImm, h3]; rfl,
    decodesF7_opBase fun _ h3 => by rw [decodeOpBase, h3]; rfl,
    decodesF7_opBase fun _ h3 => by rw [decodeOpBase, h3]; rfl⟩

/-- Settles O27: the word operations act on each bit. -/
theorem logicalInstructionsActBitwise : Obligations.LogicalInstructionsActBitwise :=
  ⟨fun _ _ _ _ => writesRd_of_regEffect rfl fun _ => BitVec.getLsbD_xor ..,
    fun _ _ _ _ => writesRd_of_regEffect rfl fun _ => BitVec.getLsbD_or ..,
    fun _ _ _ _ => writesRd_of_regEffect rfl fun _ => BitVec.getLsbD_and ..,
    fun _ _ _ _ => writesRd_of_regEffect rfl fun _ => BitVec.getLsbD_xor ..,
    fun _ _ _ _ => writesRd_of_regEffect rfl fun _ => BitVec.getLsbD_or ..,
    fun _ _ _ _ => writesRd_of_regEffect rfl fun _ => BitVec.getLsbD_and ..,
    decodesF3_opImm fun _ h3 => by rw [decodeOpImm, h3]; rfl,
    decodesF3_opImm fun _ h3 => by rw [decodeOpImm, h3]; rfl,
    decodesF3_opImm fun _ h3 => by rw [decodeOpImm, h3]; rfl,
    decodesF7_opBase fun _ h3 => by rw [decodeOpBase, h3]; rfl,
    decodesF7_opBase fun _ h3 => by rw [decodeOpBase, h3]; rfl,
    decodesF7_opBase fun _ h3 => by rw [decodeOpBase, h3]; rfl⟩

/-- Settles O28: a shift scales by a power of two; SLLI's row fixes funct7 (R66), so another selector is unlisted (R71). -/
theorem immediateShiftsScaleByAPowerOfTwo : Obligations.ImmediateShiftsScaleByAPowerOfTwo :=
  ⟨fun _ _ _ _ => writesRd_of_regEffect rfl (toNat_shiftLeft_eq_mul ..),
    fun _ _ _ _ => writesRd_of_regEffect rfl (toNat_ushiftRight_eq_div ..),
    fun _ _ _ _ => writesRd_of_regEffect rfl (toInt_sshiftRight_eq_div ..),
    decodesF7_opImm fun _ h3 h7 => by rw [decodeOpImm, h3, h7]; rfl,
    decodesF7_opImm fun _ h3 h7 => by rw [decodeOpImm, h3, h7]; rfl,
    decodesF7_opImm fun _ h3 h7 => by rw [decodeOpImm, h3, h7]; rfl,
    fun _ _ hop h3 h7 => ⟨_, (decode_eq_decodeOpImm hop).trans (decodeOpImm_unlisted_left h3 h7)⟩⟩

/-- Settles O29: the immediate shifts' arithmetic with the amount modulo 32 (R87). -/
theorem registerShiftsMaskTheAmount : Obligations.RegisterShiftsMaskTheAmount := by
  simp only [Obligations.RegisterShiftsMaskTheAmount, ← shiftAmount_eq_mod]
  exact ⟨fun _ _ _ _ => writesRd_of_regEffect rfl (toNat_shiftLeft_eq_mul ..),
    fun _ _ _ _ => writesRd_of_regEffect rfl (toNat_ushiftRight_eq_div ..),
    fun _ _ _ _ => writesRd_of_regEffect rfl (toInt_sshiftRight_eq_div ..),
    decodesF7_opBase fun _ h3 => by rw [decodeOpBase, h3]; rfl,
    decodesF7_opBase fun _ h3 => by rw [decodeOpBase, h3]; rfl,
    decodesF7_opAlt fun _ h3 => by rw [decodeOpAlt, h3]; rfl⟩

end Sys2Proof.Machine

/-! SUPPORT. The decoding of LOAD and STORE, an instruction whose effect is a load's or a store's, the value of a little-endian
read, and with them the statements of 42_load_store.md. -/

namespace Sys2Proof

/-! ## What LOAD and STORE decode to (R69) -/

section
variable {funct3 : BitVec 3} {mk : Word → Instr}

theorem decodesF3_load (h : ∀ w, funct3Of w = funct3 → decodeLoad w = .ok (mk w)) :
    Claims.DecodesF3 0b0000011#7 funct3 mk :=
  fun _ w hop h3 => (decode_eq_decodeLoad hop).trans (h w h3)

theorem decodesF3_store (h : ∀ w, funct3Of w = funct3 → decodeStore w = .ok (mk w)) :
    Claims.DecodesF3 0b0100011#7 funct3 mk :=
  fun _ w hop h3 => (decode_eq_decodeStore hop).trans (h w h3)

end

/-! ## The extensions of a narrow value (R9) -/

section
variable {n : Nat} (hn : n ≤ 32) (b : BitVec n)
include hn

theorem toInt_sext_setWidth : (sext n (b.setWidth 32)).toInt = b.toInt := by
  rw [sext, BitVec.setWidth_setWidth_of_le _ hn, BitVec.setWidth_eq, BitVec.toInt_signExtend_of_le hn]

theorem toNat_zext_setWidth : (zext n (b.setWidth 32)).toNat = b.toNat := by
  rw [zext, BitVec.setWidth_setWidth_of_le _ hn, BitVec.setWidth_eq, BitVec.toNat_setWidth_of_le hn]

end

/-! ## Bytes side by side (R40) -/

section
variable {n : Nat} (hi : BitVec n) (lo : Byte)

theorem toNat_append_byte : (hi ++ lo).toNat = hi.toNat * 256 + lo.toNat := by
  rw [BitVec.toNat_append, ← Nat.shiftLeft_add_eq_or_of_lt lo.isLt, Nat.shiftLeft_eq]

theorem toInt_append_byte (hn : n ≠ 0) : (hi ++ lo).toInt = hi.toInt * 256 + lo.toNat := by
  rw [BitVec.toInt_append, if_neg (by simpa using hn), Int.mul_comm]; rfl

end

end Sys2Proof

namespace Sys2Proof.Machine

section
variable {i : Instr} {s : State} {ea : Word} (w : Width)

/-! ## An instruction whose effect is a load's (R107, R108) -/

section
variable {ext : Word → Word} {rd : Reg} (hexec : exec i s = finish i (loadEffect s ea w ext rd) s)
include hexec

/-- In bounds, a load writes its register with the extended value. -/
theorem writesRd_of_loadEffect {P : Word → Prop} (hin : ea.toNat + w.bytes ≤ s.cfg.memSize)
    (hP : P (ext (Memory.readLE s.mem ea.toNat w))) : Claims.WritesRd i rd s P := by
  have hload : loadEffect s ea w ext rd = regEffect s rd _ := loadEffect_eq_ok.2 ⟨hin, rfl⟩
  exact writesRd_of_regEffect (hexec.trans (by rw [hload])) hP

theorem fault_of_loadEffect (hout : s.cfg.memSize < ea.toNat + w.bytes) :
    exec i s = .fault (.outOfBounds ea w.bytes) :=
  hexec.trans (finish_eq_fault.2 (loadEffect_eq_error.2 ⟨Nat.not_le.2 hout, rfl⟩))

end

/-! ## An instruction whose effect is a store's (R83, R107) -/

section
variable {v : Word} (hexec : exec i s = finish i (storeEffect s ea w v) s)
include hexec

/-- In bounds, it retires to the state whose memory is `Memory.writeLE`'s and whose registers are the old ones. -/
theorem storesAt_of_storeEffect (hin : ea.toNat + w.bytes ≤ s.cfg.memSize) : Claims.StoresAt i s ea w.bytes v := by
  refine ⟨_, hexec.trans (finish_eq_next.2 ⟨_, storeEffect_eq_ok.2 ⟨hin, rfl⟩, rfl⟩), fun r => ?_, retire_pc ..,
    ⟨retire_pcLast .., retire_instr .., retire_cfg ..⟩, fun a ha => ?_, fun k hk => ?_⟩
  · rw [retire_x]
  · rw [retire_mem]; exact Memory.get_writeLE_other s.mem ea w v a ha
  · rw [retire_mem, Memory.get_writeLE_add s.mem ea v hk, toNat_extractLsb'_eq_div_mod, Nat.pow_mul]; rfl

theorem fault_of_storeEffect (hout : s.cfg.memSize < ea.toNat + w.bytes) :
    exec i s = .fault (.outOfBounds ea w.bytes) :=
  hexec.trans (finish_eq_fault.2 (storeEffect_eq_error.2 ⟨Nat.not_le.2 hout, rfl⟩))

end

end

/-! ## The value of a little-endian read (R38, R40) -/

section
variable (m : Memory) (a : Nat)

theorem toInt_sext_readLE_byte : (sext 8 (Memory.readLE m a .byte)).toInt = (Memory.get m a).toInt :=
  toInt_sext_setWidth (by decide) _

theorem toNat_zext_readLE_byte : (zext 8 (Memory.readLE m a .byte)).toNat = (Memory.get m a).toNat :=
  toNat_zext_setWidth (by decide) _

theorem toInt_sext_readLE_half : (sext 16 (Memory.readLE m a .half)).toInt =
    (Memory.get m (a + 1)).toInt * 256 + (Memory.get m a).toNat :=
  (toInt_sext_setWidth (by decide) _).trans (toInt_append_byte _ _ (by decide))

theorem toNat_zext_readLE_half : (zext 16 (Memory.readLE m a .half)).toNat =
    (Memory.get m (a + 1)).toNat * 256 + (Memory.get m a).toNat :=
  (toNat_zext_setWidth (by decide) _).trans (toNat_append_byte _ _)

theorem toNat_readLE_word : (Memory.readLE m a .word).toNat =
    (Memory.get m (a + 3)).toNat * 256 ^ 3 + (Memory.get m (a + 2)).toNat * 256 ^ 2
      + (Memory.get m (a + 1)).toNat * 256 + (Memory.get m a).toNat := by
  rw [Memory.readLE, toNat_append_byte, toNat_append_byte, toNat_append_byte]; omega

end

/-! ## The statements -/

/-- Settles O36: a byte keeps its value under both extensions. -/
theorem loadByteExtends : Obligations.LoadByteExtends :=
  ⟨fun _ _ _ _ hin => ⟨writesRd_of_loadEffect .byte rfl hin (toInt_sext_readLE_byte ..),
      writesRd_of_loadEffect .byte rfl hin (toNat_zext_readLE_byte ..)⟩,
    fun _ _ _ _ hout => ⟨fault_of_loadEffect .byte rfl hout, fault_of_loadEffect .byte rfl hout⟩,
    decodesF3_load fun _ h3 => by rw [decodeLoad, h3]; rfl,
    decodesF3_load fun _ h3 => by rw [decodeLoad, h3]; rfl⟩

/-- Settles O37: the sign of a halfword is its high byte's, and no access asks for alignment. -/
theorem loadHalfwordExtends : Obligations.LoadHalfwordExtends :=
  ⟨fun _ _ _ _ hin => ⟨writesRd_of_loadEffect .half rfl hin (toInt_sext_readLE_half ..),
      writesRd_of_loadEffect .half rfl hin (toNat_zext_readLE_half ..)⟩,
    fun _ _ _ _ hout => ⟨fault_of_loadEffect .half rfl hout, fault_of_loadEffect .half rfl hout⟩,
    decodesF3_load fun _ h3 => by rw [decodeLoad, h3]; rfl,
    decodesF3_load fun _ h3 => by rw [decodeLoad, h3]; rfl⟩

/-- Settles O38: a word is its four bytes side by side, with no extension. -/
theorem loadWordIsLittleEndian : Obligations.LoadWordIsLittleEndian :=
  ⟨fun _ _ _ _ hin => writesRd_of_loadEffect .word rfl hin (toNat_readLE_word ..),
    fun _ _ _ _ hout => fault_of_loadEffect .word rfl hout,
    decodesF3_load fun _ h3 => by rw [decodeLoad, h3]; rfl⟩

/-- Settles O39: the three stores differ in their width alone. -/
theorem storesWriteTheirBytesOnly : Obligations.StoresWriteTheirBytesOnly :=
  ⟨fun _ _ _ _ hin => storesAt_of_storeEffect .byte rfl hin,
    fun _ _ _ _ hin => storesAt_of_storeEffect .half rfl hin,
    fun _ _ _ _ hin => storesAt_of_storeEffect .word rfl hin,
    fun _ _ _ _ hout => fault_of_storeEffect .byte rfl hout,
    fun _ _ _ _ hout => fault_of_storeEffect .half rfl hout,
    fun _ _ _ _ hout => fault_of_storeEffect .word rfl hout,
    decodesF3_store fun _ h3 => by rw [decodeStore, h3]; rfl,
    decodesF3_store fun _ h3 => by rw [decodeStore, h3]; rfl,
    decodesF3_store fun _ h3 => by rw [decodeStore, h3]; rfl⟩

end Sys2Proof.Machine

/-! SUPPORT. The decoding of BRANCH and JALR, an instruction whose effect is a branch's or a jump's, the even target of JALR, and
with them the statements of 43_control_transfer.md. -/

namespace Sys2Proof

/-! ## What BRANCH and JALR decode to (R69) -/

theorem decodesF3_branch {funct3 : BitVec 3} {mk : Word → Instr}
    (h : ∀ w, funct3Of w = funct3 → decodeBranch w = .ok (mk w)) : Claims.DecodesF3 0b1100011#7 funct3 mk :=
  fun _ w hop h3 => (decode_eq_decodeBranch hop).trans (h w h3)

theorem decode_jalr {extM : Bool} {w : Word} (hop : opcodeOf w = 0b1100111#7) (h3 : funct3Of w = 0b000#3) :
    decode extM w = .ok (.jalr (rdOf w) (rs1Of w) (immI w)) := by
  rw [decode_eq_decodeJalr hop, decodeJalr, h3]; rfl

end Sys2Proof

namespace Sys2Proof.Machine

/-! ## An instruction whose only effect is the next `pc` (R118 to R123) -/

/-- It retires to a state with the old registers and the old memory. -/
theorem onlyMovesPc_of_effect {i : Instr} {e : Except Fault Effect} {s : State} {npc : Word}
    (hexec : exec i s = finish i e s) (he : e = .ok { npc := npc }) : Claims.OnlyMovesPc i s npc :=
  ⟨_, hexec.trans (finish_eq_next.2 ⟨_, he, rfl⟩), fun _ => by rw [retire_x], fun _ => by rw [retire_mem],
    retire_pc .., retire_pcLast .., retire_instr .., retire_cfg ..⟩

/-- The condition `C` is the statement's, `taken` the comparison the meaning computes; only a taken branch checks its target. -/
theorem branches_of_branchEffect {mk : Reg → Reg → Word → Instr} {C : Word → Word → Prop} {taken : Word → Word → Bool}
    (hexec : ∀ s rs1 rs2 imm, exec (mk rs1 rs2 imm) s =
      finish (mk rs1 rs2 imm) (branchEffect s (taken (s.x rs1) (s.x rs2)) (pcTarget s imm)) s)
    (hC : ∀ a b, taken a b = true ↔ C a b) : Claims.Branches mk C := by
  intro s rs1 rs2 imm
  refine ⟨fun hnot => onlyMovesPc_of_effect (hexec ..) ?_, fun hc haligned => onlyMovesPc_of_effect (hexec ..) ?_,
    fun hc hmis => ?_⟩
  · exact branchEffect_eq_ok.2 (.inr ⟨Bool.eq_false_iff.2 (mt (hC ..).1 hnot), rfl⟩)
  · exact branchEffect_eq_ok.2 (.inl ⟨(hC ..).2 hc, haligned, rfl⟩)
  · exact (hexec ..).trans (finish_eq_fault.2 (branchEffect_eq_error.2 ⟨(hC ..).2 hc, hmis, rfl⟩))

/-! ## An instruction whose effect is a jump's (R124, R125) -/

section
variable {i : Instr} {rd : Reg} {s : State} {target : Word} (hexec : exec i s = finish i (jumpEffect s rd target) s)
include hexec

/-- To an aligned target, it retires to the state with the link in `rd`. -/
theorem jumpsTo_of_jumpEffect (haligned : target.toNat % 4 = 0) : Claims.JumpsTo i rd s target := by
  refine ⟨_, hexec.trans (finish_eq_next.2 ⟨_, jumpEffect_eq_ok.2 ⟨haligned, rfl⟩, rfl⟩), fun h0 => ?_,
    ⟨fun r hr => ?_, State.x_zero _⟩, fun a => ?_, retire_pc .., retire_pcLast .., retire_instr .., retire_cfg ..⟩
  · simp [retire_x, h0]
  · simp [retire_x, hr]
  · rw [retire_mem]

theorem fault_of_jumpEffect (hmis : target.toNat % 4 ≠ 0) : exec i s = .fault (.misalignedPC target) :=
  hexec.trans (finish_eq_fault.2 (jumpEffect_eq_error.2 ⟨hmis, rfl⟩))

end

/-- The mask of R125 rounds the sum down to an even number. -/
theorem toNat_jalrTarget (s : State) (rs1 : Reg) (imm : Word) :
    (jalrTarget s rs1 imm).toNat = (s.x rs1 + imm).toNat / 2 * 2 := by
  have hmask : (0xFFFFFFFE#32 : Word) = BitVec.allOnes 32 <<< 1 := rfl
  rw [jalrTarget, hmask, ← BitVec.shiftLeft_ushiftRight, toNat_shiftLeft_eq_mul, toNat_ushiftRight_eq_div]
  omega

/-! ## The statements -/

/-- Settles O42: the condition is the Boolean test of equality, and of its negation. -/
theorem equalityBranches : Obligations.EqualityBranches :=
  ⟨branches_of_branchEffect (fun _ _ _ _ => rfl) fun _ _ => beq_iff_eq,
    branches_of_branchEffect (fun _ _ _ _ => rfl) fun _ _ => bne_iff_ne,
    decodesF3_branch fun _ h3 => by rw [decodeBranch, h3]; rfl,
    decodesF3_branch fun _ h3 => by rw [decodeBranch, h3]; rfl⟩

/-- Settles O43: BGE negates the comparison of BLT, so equal operands take it. -/
theorem signedBranches : Obligations.SignedBranches :=
  ⟨branches_of_branchEffect (fun _ _ _ _ => rfl) ltSigned_iff,
    branches_of_branchEffect (fun _ _ _ _ => rfl) not_ltSigned_iff,
    decodesF3_branch fun _ h3 => by rw [decodeBranch, h3]; rfl,
    decodesF3_branch fun _ h3 => by rw [decodeBranch, h3]; rfl⟩

/-- Settles O44: BGEU negates the comparison of BLTU, so equal operands take it. -/
theorem unsignedBranches : Obligations.UnsignedBranches :=
  ⟨branches_of_branchEffect (fun _ _ _ _ => rfl) ltUnsigned_iff,
    branches_of_branchEffect (fun _ _ _ _ => rfl) not_ltUnsigned_iff,
    decodesF3_branch fun _ h3 => by rw [decodeBranch, h3]; rfl,
    decodesF3_branch fun _ h3 => by rw [decodeBranch, h3]; rfl⟩

/-- Settles O45: a jump to `pc + imm`, whose opcode alone decides it. -/
theorem jalJumpsAndLinks : Obligations.JalJumpsAndLinks :=
  ⟨fun _ _ _ haligned => jumpsTo_of_jumpEffect rfl haligned, fun _ _ _ hmis => fault_of_jumpEffect rfl hmis,
    fun _ _ hop => decode_jal hop⟩

/-- Settles O46: the given target is the meaning's own, which is computed before `rd` is written. -/
theorem jalrJumpsAndLinks : Obligations.JalrJumpsAndLinks := by
  refine ⟨fun s rd rs1 imm target heven => ?_, fun _ _ hop h3 => decode_jalr hop h3,
    fun _ _ hop h3 => ⟨_, (decode_eq_decodeJalr hop).trans (decodeJalr_unlisted h3)⟩⟩
  obtain rfl : target = jalrTarget s rs1 imm := BitVec.eq_of_toNat_eq (heven.trans (toNat_jalrTarget ..).symm)
  exact ⟨jumpsTo_of_jumpEffect rfl, fault_of_jumpEffect rfl⟩

end Sys2Proof.Machine

/-! SUPPORT. The statement of 44_upper_immediate.md: an upper-immediate instruction writes one register and nothing else, and
its opcode alone decides it. -/

namespace Sys2Proof.Machine

/-- Settles O30: LUI's effect is its immediate in `rd`, AUIPC's the library's sum of words. -/
theorem upperImmediatesAreWrittenOrAddedToPc : Obligations.UpperImmediatesAreWrittenOrAddedToPc :=
  ⟨fun _ _ _ => writesRd_of_regEffect rfl rfl,
    fun _ _ _ => writesRd_of_regEffect rfl (BitVec.toNat_add ..),
    fun _ _ hop => decode_lui hop,
    fun _ _ hop => decode_auipc hop⟩

end Sys2Proof.Machine

/-! SUPPORT. The decoding of the RV32M group, the high word of a product and the guarded quotients and remainders as arithmetic, and
with them the statements of 45_muldiv.md. -/

namespace Sys2Proof

/-- The group is there with `EXT_M` and absent without (R69). -/
theorem decodesM_of_decodeOpMulDiv {funct3 : BitVec 3} {mk : Word → Instr}
    (h : ∀ w, funct3Of w = funct3 → decodeOpMulDiv w = mk w) : Claims.DecodesM funct3 mk :=
  fun w hop h3 h7 => ⟨(decode_eq_decodeOp hop).trans ((decodeOp_mulDiv h7).trans (congrArg _ (h w h3))),
    _, (decode_eq_decodeOp hop).trans (decodeOp_extMAbsent h7)⟩

end Sys2Proof

namespace Sys2Proof.Machine

/-! ## The high word of an exact product (R129, R131 to R133) -/

theorem highWord_eq_ofInt_div (p : Int) : highWord p = BitVec.ofInt 32 (p / 2 ^ 32) := by
  apply BitVec.eq_of_toNat_eq
  rw [highWord, BitVec.extractLsb'_toNat, Nat.shiftRight_eq_div_pow, BitVec.toNat_ofInt, BitVec.toNat_ofInt]
  omega

/-- A signed word times a factor of at most 32 bits of magnitude fits 64 bits, so its high word is signed. -/
theorem toInt_highWord_mul (a : Word) {c : Int} (hc : |c| < 2 ^ 32) :
    (highWord (a.toInt * c)).toInt = a.toInt * c / 2 ^ 32 := by
  have ha : |a.toInt| ≤ 2 ^ 31 := abs_le.2 ⟨a.le_toInt, a.toInt_lt.le⟩
  have hp : |a.toInt * c| < 2 ^ 31 * 2 ^ 32 := abs_mul a.toInt c ▸ mul_lt_mul' ha hc (abs_nonneg c) (by decide)
  obtain ⟨hlo, hhi⟩ := abs_lt.1 hp
  rw [highWord_eq_ofInt_div, BitVec.toInt_ofInt_eq_self (by decide) (by omega) (by omega)]

theorem toNat_highWord_mul (a b : Word) :
    (highWord ((a.toNat : Int) * (b.toNat : Int))).toNat = a.toNat * b.toNat / 2 ^ 32 := by
  have hp : a.toNat * b.toNat < 2 ^ 32 * 2 ^ 32 := Nat.mul_lt_mul'' a.isLt b.isLt
  rw [highWord_eq_ofInt_div, BitVec.toNat_ofInt, ← Int.natCast_mul]
  omega

theorem abs_toInt_lt (b : Word) : |b.toInt| < 2 ^ 32 :=
  abs_lt.2 ⟨lt_of_lt_of_le (by decide) b.le_toInt, b.toInt_lt.trans (by decide)⟩

theorem abs_toNat_lt (b : Word) : |(b.toNat : Int)| < 2 ^ 32 := by
  rw [Nat.abs_cast]; exact_mod_cast b.isLt

/-! ## The quotients and the remainders (R134 to R137) -/

/-- The statements name a special case and its value the way the definitions do: what is left to show is the other case. -/
theorem guarded_of_eq_ite {c Q : Prop} [Decidable c] {v x y : Word} (hv : v = if c then x else y) (h : ¬ c → v = y → Q) :
    if c then v = x else Q := by
  split
  case isTrue hc => exact hv.trans (if_pos hc)
  case isFalse hc => exact h hc (hv.trans (if_neg hc))

section
variable {a b : Word} (hb : b ≠ 0)
include hb

theorem toNat_divUnsigned : (divUnsigned a b).toNat = a.toNat / b.toNat := by
  rw [divUnsigned, if_neg hb, ← BitVec.udiv_def, BitVec.toNat_udiv]

theorem toNat_remUnsigned : (remUnsigned a b).toNat = a.toNat % b.toNat := by
  rw [remUnsigned, if_neg hb, ← BitVec.umod_def, BitVec.toNat_umod]

variable (hover : ¬ (a = 0x80000000#32 ∧ b = 0xFFFFFFFF#32))
include hover

/-- The overflow pair is the only one whose quotient leaves the signed range. -/
theorem toInt_divSigned : (divSigned a b).toInt = a.toInt.tdiv b.toInt := by
  rw [divSigned, if_neg hb, if_neg hover, BitVec.toInt_ofInt, ← BitVec.toInt_sdiv]
  exact BitVec.toInt_sdiv_of_ne_or_ne a b (not_and_or.1 hover)

theorem toInt_remSigned : (remSigned a b).toInt = a.toInt - b.toInt * a.toInt.tdiv b.toInt := by
  rw [remSigned, if_neg hb, if_neg hover, ← Int.tmod_def, ← BitVec.toInt_srem, BitVec.ofInt_toInt]

end

/-! ## The statements -/

/-- Settles O31: the low word is the library's product of words; a high word is the exact product, which fits 64 bits, divided by
2^32. -/
theorem multiplyReturnsWordsOfTheExactProduct : Obligations.MultiplyReturnsWordsOfTheExactProduct :=
  ⟨fun _ _ _ _ => writesRd_of_regEffect rfl (BitVec.toNat_mul ..),
    fun _ _ _ _ => writesRd_of_regEffect rfl (toInt_highWord_mul _ (abs_toInt_lt _)),
    fun _ _ _ _ => writesRd_of_regEffect rfl (toInt_highWord_mul _ (abs_toNat_lt _)),
    fun _ _ _ _ => writesRd_of_regEffect rfl (toNat_highWord_mul ..),
    decodesM_of_decodeOpMulDiv fun _ h3 => by rw [decodeOpMulDiv, h3]; rfl,
    decodesM_of_decodeOpMulDiv fun _ h3 => by rw [decodeOpMulDiv, h3]; rfl,
    decodesM_of_decodeOpMulDiv fun _ h3 => by rw [decodeOpMulDiv, h3]; rfl,
    decodesM_of_decodeOpMulDiv fun _ h3 => by rw [decodeOpMulDiv, h3]; rfl⟩

/-- Settles O32: a zero divisor and the overflow pair have the values of their own cases, every other pair the exact quotient. -/
theorem divideRoundsTowardZero : Obligations.DivideRoundsTowardZero :=
  ⟨fun _ _ _ _ => writesRd_of_regEffect rfl
      (guarded_of_eq_ite rfl fun hb hv => guarded_of_eq_ite hv fun hover _ => toInt_divSigned hb hover),
    fun _ _ _ _ => writesRd_of_regEffect rfl (guarded_of_eq_ite rfl fun hb _ => toNat_divUnsigned hb),
    decodesM_of_decodeOpMulDiv fun _ h3 => by rw [decodeOpMulDiv, h3]; rfl,
    decodesM_of_decodeOpMulDiv fun _ h3 => by rw [decodeOpMulDiv, h3]; rfl⟩

/-- Settles O33: a zero divisor and the overflow pair have the values of their own cases, every other pair what the exact quotient
leaves. -/
theorem remainderMatchesTheQuotient : Obligations.RemainderMatchesTheQuotient :=
  ⟨fun _ _ _ _ => writesRd_of_regEffect rfl
      (guarded_of_eq_ite rfl fun hb hv => guarded_of_eq_ite hv fun hover _ => toInt_remSigned hb hover),
    fun _ _ _ _ => writesRd_of_regEffect rfl (guarded_of_eq_ite rfl fun hb _ => toNat_remUnsigned hb),
    decodesM_of_decodeOpMulDiv fun _ h3 => by rw [decodeOpMulDiv, h3]; rfl,
    decodesM_of_decodeOpMulDiv fun _ h3 => by rw [decodeOpMulDiv, h3]; rfl⟩

end Sys2Proof.Machine

/-! SUPPORT. The statement of 46_fence_system.md: FENCE has the effect of a branch that is not taken, and its word is the one row
of MISC-MEM. -/

namespace Sys2Proof

theorem decode_fence {extM : Bool} {w : Word} (hop : opcodeOf w = 0b0001111#7) (h3 : funct3Of w = 0b000#3) :
    decode extM w = .ok (.fence (w.extractLsb' 28 4) (w.extractLsb' 24 4) (w.extractLsb' 20 4) (rdOf w) (rs1Of w)) := by
  rw [decode_eq_decodeMiscMem hop, decodeMiscMem, h3]; rfl

end Sys2Proof

namespace Sys2Proof.Machine

/-- Settles O48: no field of FENCE enters its effect, which is the sequential `pc` alone. -/
theorem fenceOnlyMovesPc : Obligations.FenceOnlyMovesPc :=
  ⟨fun _ _ _ _ _ _ => onlyMovesPc_of_effect rfl rfl, fun _ _ hop h3 => decode_fence hop h3, fun _ _ _ _ _ => rfl⟩

end Sys2Proof.Machine

/-! SUPPORT. When an instruction raises an error of its own and when a step ends with one, and with them the statements of
60_exceptions.md. -/

namespace Sys2Proof

/-- The decoder rejects only words that match no present row (R69, R70). -/
theorem unmatched_iff_decode_eq_error {extM : Bool} {w : Word} :
    Claims.Unmatched extM w ↔ ∃ r, decode extM w = .error r := by
  refine ⟨decode_of_unmatched, fun ⟨r, hr⟩ row hrow hhits => ?_⟩
  by_contra hpresent
  have hM : row.needsM = true → extM = true := by simpa using hpresent
  obtain ⟨i, hi, -⟩ := rowDecodes row hrow extM w hhits hM
  rw [hr] at hi
  cases hi

end Sys2Proof

namespace Sys2Proof.Machine

open Claims

/-! ## The errors of an instruction (R109 to R117, R145) -/

/-- The reason R141 gives for an error that an instruction raises, none for the decoder's. -/
def ErrorDue (i : Instr) (s : State) : Fault → Prop
  | .outOfBounds a n => s.cfg.memSize < a.toNat + n
  | .misalignedPC t => Taken i s ∧ t.toNat % 4 ≠ 0
  | .decodeError _ _ => False

section
variable {i : Instr} {s : State} {f : Fault}

theorem exec_eq_fault_of_retires {t : State} (hexec : exec i s = .next t) (hown : ownError i s = none) :
    exec i s = .fault f ↔ ownError i s = some f ∧ ErrorDue i s f := by
  simp [hexec, hown]

/-- An effect that fails with one error alone, exactly when that error is due. -/
theorem exec_eq_fault_of_effect {e : Except Fault Effect} {g : Fault} (hexec : exec i s = finish i e s)
    (hown : ownError i s = some g) (he : e = .error f ↔ ErrorDue i s g ∧ f = g) :
    exec i s = .fault f ↔ ownError i s = some f ∧ ErrorDue i s f := by
  rw [hexec, finish_eq_fault, he, hown, Option.some.injEq]
  constructor
  · rintro ⟨hdue, rfl⟩; exact ⟨rfl, hdue⟩
  · rintro ⟨rfl, hdue⟩; exact ⟨hdue, rfl⟩

theorem exec_eq_fault_of_loadEffect {a : Word} {w : Width} {ext : Word → Word} {rd : Reg}
    (hexec : exec i s = finish i (loadEffect s a w ext rd) s) (hown : ownError i s = some (.outOfBounds a w.bytes)) :
    exec i s = .fault f ↔ ownError i s = some f ∧ ErrorDue i s f :=
  exec_eq_fault_of_effect hexec hown (by rw [loadEffect_eq_error, Nat.not_le, ErrorDue])

theorem exec_eq_fault_of_storeEffect {a : Word} {w : Width} {v : Word}
    (hexec : exec i s = finish i (storeEffect s a w v) s) (hown : ownError i s = some (.outOfBounds a w.bytes)) :
    exec i s = .fault f ↔ ownError i s = some f ∧ ErrorDue i s f :=
  exec_eq_fault_of_effect hexec hown (by rw [storeEffect_eq_error, Nat.not_le, ErrorDue])

theorem exec_eq_fault_of_jumpEffect {rd : Reg} {target : Word} (hexec : exec i s = finish i (jumpEffect s rd target) s)
    (htaken : Taken i s) (hown : ownError i s = some (.misalignedPC target)) :
    exec i s = .fault f ↔ ownError i s = some f ∧ ErrorDue i s f :=
  exec_eq_fault_of_effect hexec hown (by simp [jumpEffect_eq_error, ErrorDue, htaken])

/-- `Taken` is the statement's condition, `taken` the comparison the meaning computes. -/
theorem exec_eq_fault_of_branchEffect {taken : Bool} {target : Word}
    (hexec : exec i s = finish i (branchEffect s taken target) s) (htaken : taken = true ↔ Taken i s)
    (hown : ownError i s = some (.misalignedPC target)) :
    exec i s = .fault f ↔ ownError i s = some f ∧ ErrorDue i s f :=
  exec_eq_fault_of_effect hexec hown (by rw [branchEffect_eq_error, htaken, ErrorDue, and_assoc])

/-- An instruction raises its own error when that error is due, and no other. -/
theorem exec_eq_fault : exec i s = .fault f ↔ ownError i s = some f ∧ ErrorDue i s f := by
  cases i with
  | lui | auipc | addi | slti | sltiu | xori | ori | andi | slli | srli | srai | add | sub | sll | slt | sltu | xor
  | srl | sra | or | and | fence | mul | mulh | mulhsu | mulhu | div | divu | rem | remu =>
    exact exec_eq_fault_of_retires rfl rfl
  | lb | lh | lw | lbu | lhu => exact exec_eq_fault_of_loadEffect rfl rfl
  | sb | sh | sw => exact exec_eq_fault_of_storeEffect rfl rfl
  | jal | jalr => exact exec_eq_fault_of_jumpEffect rfl trivial rfl
  | beq => exact exec_eq_fault_of_branchEffect rfl beq_iff_eq rfl
  | bne => exact exec_eq_fault_of_branchEffect rfl bne_iff_ne rfl
  | blt => exact exec_eq_fault_of_branchEffect rfl (ltSigned_iff ..) rfl
  | bge => exact exec_eq_fault_of_branchEffect rfl (not_ltSigned_iff ..) rfl
  | bltu => exact exec_eq_fault_of_branchEffect rfl (ltUnsigned_iff ..) rfl
  | bgeu => exact exec_eq_fault_of_branchEffect rfl (not_ltUnsigned_iff ..) rfl

/-! ## The errors of a step (R141, R145) -/

theorem fetch_ne_decodeError {p w : Word} : fetch s ≠ .error (.decodeError p w) := by
  simp [fetch_eq_error]

theorem fetch_eq_outOfBounds {a : Word} {n : Nat} : fetch s = .error (.outOfBounds a n) ↔
    a = s.pc ∧ n = 4 ∧ s.pc.toNat % 4 = 0 ∧ s.cfg.memSize < s.pc.toNat + 4 := by
  simp only [fetch_eq_error, reduceCtorEq, and_false, false_or, Fault.outOfBounds.injEq, Nat.not_le]
  tauto

theorem fetch_eq_misalignedPC {t : Word} : fetch s = .error (.misalignedPC t) ↔ t = s.pc ∧ s.pc.toNat % 4 ≠ 0 := by
  simp [fetch_eq_error, and_comm]

/-- The three places where a step can fail, in the order of R145: fetch, decode, execute. -/
theorem step_eq_fault : step s = .fault f ↔
    fetch s = .error f ∨
    (∃ w, fetch s = .ok w ∧ Unmatched s.cfg.extM w ∧ f = .decodeError s.pc w) ∨
    ∃ w i, fetch s = .ok w ∧ decode s.cfg.extM w = .ok i ∧ ownError i s = some f ∧ ErrorDue i s f := by
  cases hw : fetch s with
  | error g =>
    have hstep : step s = .fault g := by rw [step, fetchDecode_eq_error.2 (.inl hw)]; rfl
    simp [hstep]
  | ok w =>
    cases hi : decode s.cfg.extM w with
    | error r => simp [(step_of_rejected hw hi).1, unmatched_iff_decode_eq_error, hi, eq_comm]
    | ok i => simp [step_of_decoded hw hi, exec_eq_fault, unmatched_iff_decode_eq_error, hi]

end

theorem step_ne_refused (s : State) (r : Refusal) : step s ≠ .refused r := by
  unfold step
  cases fetchDecode s with
  | ok i => exact exec_ne_refused i s r
  | error f => simp [raise]

/-! ## The statements -/

/-- Settles O14: the checks are made one after the other, and execution can raise the instruction's own error alone. -/
theorem errorsAreReportedInOrder : Obligations.ErrorsAreReportedInOrder := by
  refine fun s => ⟨fun hmis => ?_, fun haligned hout => ?_, fun w hw hrejects => ?_,
    fun w i => step_of_decoded, fun i f hf => (exec_eq_fault.1 hf).1⟩
  · exact step_eq_fault.2 (.inl (fetch_eq_misalignedPC.2 ⟨rfl, hmis⟩))
  · exact step_eq_fault.2 (.inl (fetch_eq_outOfBounds.2 ⟨rfl, rfl, haligned, hout⟩))
  · cases hd : decode s.cfg.extM w with
    | ok i => exact absurd hd (hrejects i)
    | error r => exact (step_of_rejected hw hd).1

/-- Settles O15: a `DecodeError` comes from the decoder alone, and the decoder raises neither of the other two, which come from
the fetch or from the instruction, there for its own reason. -/
theorem stepOutcomesAreExactlyTheSpecs : Obligations.StepOutcomesAreExactlyTheSpecs := by
  refine fun s => ⟨step_ne_refused s, fun p w => ?_, fun a n => ?_, fun t => ?_⟩
  · have hexec : ¬ ∃ w' i, fetch s = .ok w' ∧ decode s.cfg.extM w' = .ok i ∧
        ownError i s = some (.decodeError p w) ∧ ErrorDue i s (.decodeError p w) := by simp [ErrorDue]
    rw [step_eq_fault, or_iff_right fetch_ne_decodeError, or_iff_left hexec]
    constructor
    · rintro ⟨w', hw, hun, heq⟩; cases heq; exact ⟨rfl, hw, hun⟩
    · rintro ⟨rfl, hw, hun⟩; exact ⟨w, hw, hun, rfl⟩
  · exact step_eq_fault.trans (or_congr fetch_eq_outOfBounds (or_iff_right (by simp)))
  · have hexec : ∀ i, ownError i s = some (.misalignedPC t) ∧ ErrorDue i s (.misalignedPC t) ↔
        Taken i s ∧ ownError i s = some (.misalignedPC t) ∧ t.toNat % 4 ≠ 0 := fun _ => and_left_comm
    simp only [← hexec]
    exact step_eq_fault.trans (or_congr fetch_eq_misalignedPC (or_iff_right (by simp)))

/-- Settles O16: the driver keeps the state of a failing step, so the next call is the same call. -/
theorem anErrorLeavesTheState : Obligations.AnErrorLeavesTheState := by
  intro s f h
  rw [stepCall_of_fault h]
  exact ⟨rfl, stepCall_of_fault h⟩

end Sys2Proof.Machine

/-! SUPPORT. Decoding an encoded word format by format, that the decoder gives well-formed instructions, and with them the two
round trips and the sample words of 30_encoding.md. -/

namespace Sys2Proof

/-! ## Decoding an encoded word (R55 to R60) -/

section
variable {extM : Bool} {opcode : BitVec 7} {funct3 : BitVec 3} {funct7 : BitVec 7} {rd rs1 rs2 : Reg} {imm : Word}

/-! The decoder reads the operands back from a word whose fixed fields select the constructor `mk`. -/

theorem decode_encodeI {mk : Reg → Reg → Word → Instr} (hfit : immFits12 imm = true)
    (h : Claims.DecodesF3 opcode funct3 fun w => mk (rdOf w) (rs1Of w) (immI w)) :
    decode extM (encodeI imm rs1 funct3 rd opcode) = .ok (mk rd rs1 imm) := by
  simpa [immI_encodeI _ _ _ _ hfit] using h extM _ (opcodeOf_encodeI imm rs1 _ rd _) (funct3Of_encodeI ..)

theorem decode_encodeS {mk : Reg → Reg → Word → Instr} (hfit : immFits12 imm = true)
    (h : Claims.DecodesF3 opcode funct3 fun w => mk (rs1Of w) (rs2Of w) (immS w)) :
    decode extM (encodeS imm rs2 rs1 funct3 opcode) = .ok (mk rs1 rs2 imm) := by
  simpa [immS_encodeS _ _ _ _ hfit] using h extM _ (opcodeOf_encodeS imm rs2 rs1 ..) (funct3Of_encodeS ..)

theorem decode_encodeB {mk : Reg → Reg → Word → Instr} (hfit : immFitsB imm = true)
    (h : Claims.DecodesF3 opcode funct3 fun w => mk (rs1Of w) (rs2Of w) (immB w)) :
    decode extM (encodeB imm rs2 rs1 funct3 opcode) = .ok (mk rs1 rs2 imm) := by
  simpa [immB_encodeB _ _ _ _ hfit] using h extM _ (opcodeOf_encodeB imm rs2 rs1 ..) (funct3Of_encodeB ..)

theorem decode_encodeR {mk : Reg → Reg → Reg → Instr}
    (h : Claims.DecodesF7 opcode funct3 funct7 fun w => mk (rdOf w) (rs1Of w) (rs2Of w)) :
    decode extM (encodeR funct7 rs2 rs1 funct3 rd opcode) = .ok (mk rd rs1 rs2) := by
  simpa using h extM _ (opcodeOf_encodeR _ rs2 rs1 _ rd _) (funct3Of_encodeR ..) (funct7Of_encodeR ..)

/-- The words of the RV32M group decode on an engine that has it (R69). -/
theorem decode_encodeR_mulDiv {mk : Reg → Reg → Reg → Instr} (hext : extM = true)
    (h : Claims.DecodesM funct3 fun w => mk (rdOf w) (rs1Of w) (rs2Of w)) :
    decode extM (encodeR 0b0000001#7 rs2 rs1 funct3 rd 0b0110011#7) = .ok (mk rd rs1 rs2) := by
  simpa [hext] using (h _ (opcodeOf_encodeR _ rs2 rs1 _ rd _) (funct3Of_encodeR ..) (funct7Of_encodeR ..)).1

theorem decode_encode_lui (hfit : immFitsU imm = true) : decode extM (encode (.lui rd imm)) = .ok (.lui rd imm) := by
  rw [encode, decode_lui (opcodeOf_encodeU ..), rdOf_encodeU, immU_encodeU _ _ hfit]

theorem decode_encode_auipc (hfit : immFitsU imm = true) :
    decode extM (encode (.auipc rd imm)) = .ok (.auipc rd imm) := by
  rw [encode, decode_auipc (opcodeOf_encodeU ..), rdOf_encodeU, immU_encodeU _ _ hfit]

theorem decode_encode_jal (hfit : immFitsJ imm = true) : decode extM (encode (.jal rd imm)) = .ok (.jal rd imm) := by
  rw [encode, decode_jal (opcodeOf_encodeJ ..), rdOf_encodeJ, immJ_encodeJ _ _ hfit]

/-- FENCE's three fields stand side by side above its register fields (R138). -/
theorem encode_fence_getLsbD (fm pred succ : BitVec 4) {k : Nat} (hk : 20 ≤ k) :
    (encode (.fence fm pred succ rd rs1)).getLsbD k =
      if k < 24 then succ.getLsbD (k - 20) else if k < 28 then pred.getLsbD (k - 24) else fm.getLsbD (k - 28) := by
  change BitVec.getLsbD (w := 4 + 4 + 4 + 5 + 3 + 5 + 7)
    (fm ++ pred ++ succ ++ regBits rs1 ++ 0b000#3 ++ regBits rd ++ 0b0001111#7) k = _
  simp only [BitVec.getLsbD_append]
  grind

theorem decode_encode_fence {fm pred succ : BitVec 4} :
    decode extM (encode (.fence fm pred succ rd rs1)) = .ok (.fence fm pred succ rd rs1) := by
  have hfm : (encode (.fence fm pred succ rd rs1)).extractLsb' 28 4 = fm := by
    ext k hk; rw [BitVec.getElem_extractLsb', encode_fence_getLsbD _ _ _ (by omega)]; grind
  have hpred : (encode (.fence fm pred succ rd rs1)).extractLsb' 24 4 = pred := by
    ext k hk; rw [BitVec.getElem_extractLsb', encode_fence_getLsbD _ _ _ (by omega)]; grind
  have hsucc : (encode (.fence fm pred succ rd rs1)).extractLsb' 20 4 = succ := by
    ext k hk; rw [BitVec.getElem_extractLsb', encode_fence_getLsbD _ _ _ (by omega)]; grind
  rw [decode_fence (by rw [encode_fence, opcodeOf_encodeI]) (by rw [encode_fence, funct3Of_encodeI]), hfm, hpred, hsucc,
    encode_fence, rdOf_encodeI, rs1Of_encodeI]

end

/-- Settles O5: the fixed fields of an encoded word select the instruction's own row, and every operand survives its encoding; a
shift amount stands in the place of `rs2` (R66). -/
theorem decodeInvertsEncode : Obligations.DecodeInvertsEncode := by
  intro extM i hwf havail
  cases i with
  | lui => exact decode_encode_lui hwf
  | auipc => exact decode_encode_auipc hwf
  | jal => exact decode_encode_jal hwf
  | jalr => exact decode_encodeI hwf fun _ _ => decode_jalr
  | beq | bne | blt | bge | bltu | bgeu =>
    exact decode_encodeB hwf (decodesF3_branch fun _ h3 => by rw [decodeBranch, h3]; rfl)
  | lb | lh | lw | lbu | lhu => exact decode_encodeI hwf (decodesF3_load fun _ h3 => by rw [decodeLoad, h3]; rfl)
  | sb | sh | sw => exact decode_encodeS hwf (decodesF3_store fun _ h3 => by rw [decodeStore, h3]; rfl)
  | addi | slti | sltiu | xori | ori | andi =>
    exact decode_encodeI hwf (decodesF3_opImm fun _ h3 => by rw [decodeOpImm, h3]; rfl)
  | slli | srli | srai => exact decode_encodeR (decodesF7_opImm fun _ h3 h7 => by rw [decodeOpImm, h3, h7]; rfl)
  | add | sll | slt | sltu | xor | srl | or | and =>
    exact decode_encodeR (decodesF7_opBase fun _ h3 => by rw [decodeOpBase, h3]; rfl)
  | sub | sra => exact decode_encodeR (decodesF7_opAlt fun _ h3 => by rw [decodeOpAlt, h3]; rfl)
  | fence => exact decode_encode_fence
  | mul | mulh | mulhsu | mulhu | div | divu | rem | remu =>
    exact decode_encodeR_mulDiv havail (decodesM_of_decodeOpMulDiv fun _ h3 => by rw [decodeOpMulDiv, h3]; rfl)

/-! ## The decoder gives well-formed instructions (R61 to R66) -/

section
variable {w : Word} {i : Instr}

theorem wellFormed_of_decodeJalr (h : decodeJalr w = .ok i) : i.wellFormed = true := by
  unfold decodeJalr at h
  split at h <;> cases h
  exact immFits12_immI w

theorem wellFormed_of_decodeBranch (h : decodeBranch w = .ok i) : i.wellFormed = true := by
  unfold decodeBranch at h
  split at h <;> cases h
  all_goals exact immFitsB_immB w

theorem wellFormed_of_decodeLoad (h : decodeLoad w = .ok i) : i.wellFormed = true := by
  unfold decodeLoad at h
  split at h <;> cases h
  all_goals exact immFits12_immI w

theorem wellFormed_of_decodeStore (h : decodeStore w = .ok i) : i.wellFormed = true := by
  unfold decodeStore at h
  split at h <;> cases h
  all_goals exact immFits12_immS w

/-- A shift amount of five bits needs no check. -/
theorem wellFormed_of_decodeOpImm (h : decodeOpImm w = .ok i) : i.wellFormed = true := by
  unfold decodeOpImm at h
  split at h
  case h_2 => split at h <;> cases h; rfl
  case h_6 => split at h <;> cases h <;> rfl
  all_goals cases h; exact immFits12_immI w

theorem wellFormed_decodeOpBase (w : Word) : (decodeOpBase w).wellFormed = true := by
  unfold decodeOpBase
  split <;> rfl

theorem wellFormed_of_decodeOpAlt (h : decodeOpAlt w = .ok i) : i.wellFormed = true := by
  unfold decodeOpAlt at h
  split at h <;> cases h <;> rfl

theorem wellFormed_decodeOpMulDiv (w : Word) : (decodeOpMulDiv w).wellFormed = true := by
  unfold decodeOpMulDiv
  split <;> rfl

theorem wellFormed_of_decodeOp {extM : Bool} (h : decodeOp extM w = .ok i) : i.wellFormed = true := by
  unfold decodeOp at h
  split at h
  · cases h; exact wellFormed_decodeOpBase w
  · exact wellFormed_of_decodeOpAlt h
  · split at h <;> cases h; exact wellFormed_decodeOpMulDiv w
  · cases h

theorem wellFormed_of_decodeMiscMem (h : decodeMiscMem w = .ok i) : i.wellFormed = true := by
  unfold decodeMiscMem at h
  split at h <;> cases h
  rfl

theorem wellFormed_of_decode {extM : Bool} (h : decode extM w = .ok i) : i.wellFormed = true := by
  unfold decode at h
  split at h
  · cases h; exact immFitsU_immU w
  · cases h; exact immFitsU_immU w
  · cases h; exact immFitsJ_immJ w
  · exact wellFormed_of_decodeJalr h
  · exact wellFormed_of_decodeBranch h
  · exact wellFormed_of_decodeLoad h
  · exact wellFormed_of_decodeStore h
  · exact wellFormed_of_decodeOpImm h
  · exact wellFormed_of_decodeOp h
  · exact wellFormed_of_decodeMiscMem h
  · cases h

end

/-- Settles O6: every decoder keeps each bit of the word, and the immediates it assembles are in range. -/
theorem encodeInvertsDecode : Obligations.EncodeInvertsDecode :=
  fun _ _ _ h => ⟨encode_of_decode h, wellFormed_of_decode h, available_of_decode h⟩

/-- Settles O12: the decoder evaluates on each of the eleven words. -/
theorem writtenOutWordsDecode : Obligations.WrittenOutWordsDecode := by
  unfold Obligations.WrittenOutWordsDecode; decide

end Sys2Proof

/-! SUPPORT. What a retired instruction keeps, the host's `reset()` and `loadProgram`, and with them the frames of an instruction,
the invariant of 10_state.md and its safety along every run, and the statements of 70_reset_and_hazards.md. -/

namespace Sys2Proof

/-- A branch and a store name no destination (R57, R58). -/
theorem Instr.dest_of_iType {i : Instr} (h : i.iType = .B ∨ i.iType = .S) : i.dest = none := by
  cases i with
  | beq | bne | blt | bge | bltu | bgeu | sb | sh | sw => rfl
  | _ => simp [Instr.iType] at h

end Sys2Proof

namespace Sys2Proof.Machine

/-! ## Memory, registers and `pc` after an instruction (R22, R43, R83) -/

/-- The sequential `pc` of an aligned one is aligned, also where it wraps. -/
theorem toNat_add_four_aligned {a : Word} (h : a.toNat % 4 = 0) : (a + 4).toNat % 4 = 0 := by bv_omega

section
variable {i : Instr} {s t : State} {e : Effect}

theorem LegalEffect.retire_mem_of_iType_ne (he : LegalEffect i s e) (hi : i.iType ≠ .S) : (retire i e s).mem = s.mem := by
  rw [retire_mem]
  cases hst : e.store with
  | none => rfl
  | some st => exact absurd (he.store st hst).1 hi

theorem retire_mem_wf (hm : Memory.wf s.mem) : Memory.wf (retire i e s).mem := by
  rw [retire_mem]
  cases e.store with
  | none => exact hm
  | some st => exact Memory.writeLE_wf _ _ _ hm

theorem LegalEffect.retire_mem_within (he : LegalEffect i s e) (hm : Memory.within s.cfg.memSize s.mem) :
    Memory.within s.cfg.memSize (retire i e s).mem := by
  rw [retire_mem]
  cases hst : e.store with
  | none => exact hm
  | some st => exact Memory.writeLE_within _ (he.store st hst).2 hm

theorem LegalEffect.npc_aligned (he : LegalEffect i s e) (hpc : s.pc.toNat % 4 = 0) : e.npc.toNat % 4 = 0 := by
  obtain hseq | haligned := he.npc
  · rw [hseq]; exact toNat_add_four_aligned hpc
  · exact haligned

/-- A fetch succeeds at an aligned `pc` only, so a step that retires started there. -/
theorem step_pc_aligned (h : step s = .next t) : t.pc.toNat % 4 = 0 := by
  obtain ⟨w, i, hw, -, hx⟩ := step_eq_next.1 h
  obtain ⟨e, rfl, he⟩ := exec_eq_next hx
  rw [retire_pc]
  exact he.npc_aligned (fetch_eq_ok.1 hw).1

theorem exec_cfg (h : exec i s = .next t) : t.cfg = s.cfg := by
  obtain ⟨e, rfl, -⟩ := exec_eq_next h
  exact retire_cfg i e s

theorem step_cfg (h : step s = .next t) : t.cfg = s.cfg := by
  obtain ⟨w, i, -, -, hx⟩ := step_eq_next.1 h
  exact exec_cfg hx

/-- The step after a transfer to an aligned target outside memory is the one that fails (R78, R117). -/
theorem step_eq_fault_of_pc_outside (haligned : s.pc.toNat % 4 = 0) (hout : s.cfg.memSize < s.pc.toNat + 4) :
    step s = .fault (.outOfBounds s.pc 4) :=
  step_eq_fault.2 (.inl (fetch_eq_outOfBounds.2 ⟨rfl, rfl, haligned, hout⟩))

end

/-! ## `reset()` and `loadProgram` (R157, R158) -/

theorem RegFile.read_regsAtReset (n : Nat) (r : Reg) :
    RegFile.read (regsAtReset n) r = if r = 2 then BitVec.ofNat 32 n else 0 := by
  by_cases hr : r = 0
  · subst hr; simp
  · have hpos : (r : Nat) ≠ 0 := fun h => hr (Fin.ext h)
    have hsp : 1 = (r : Nat) - 1 ↔ r = 2 := by rw [Fin.ext_iff, show ((2 : Reg) : Nat) = 2 from rfl]; omega
    simp [RegFile.read, regsAtReset, hr, Vector.getElem_set, hsp]

theorem hostReset_eq_launch (s : State) : hostReset s = State.launch s.cfg s.mem := rfl

theorem loadProgram_of_inside {s : State} {bytes : List Byte} {address : Int} (h0 : 0 ≤ address)
    (hend : address + bytes.length ≤ s.cfg.memSize) :
    loadProgram s bytes address = .ok (s.setMem (Memory.writeBytes s.mem address.toNat bytes)) :=
  if_pos ((hostInBounds_iff _ _ _).2 ⟨h0, hend⟩)

theorem loadProgram_of_outside {s : State} {bytes : List Byte} {address : Int}
    (h : address < 0 ∨ (s.cfg.memSize : Int) < address + bytes.length) :
    loadProgram s bytes address = .error (.outOfBounds address bytes.length) :=
  if_neg fun hin => by rw [hostInBounds_iff] at hin; omega

theorem loadProgram_eq_ok {s t : State} {bytes : List Byte} {address : Int} :
    loadProgram s bytes address = .ok t ↔ 0 ≤ address ∧ address + bytes.length ≤ s.cfg.memSize ∧
      t = s.setMem (Memory.writeBytes s.mem address.toNat bytes) := by
  by_cases hin : 0 ≤ address ∧ address + bytes.length ≤ s.cfg.memSize
  · simp [loadProgram_of_inside hin.1 hin.2, hin, eq_comm]
  · rw [loadProgram_of_outside (by omega)]
    simp only [reduceCtorEq, false_iff]
    tauto

/-- The load reads the parameters and memory, which `reset()` does not change (R159). -/
theorem loadProgram_hostReset (s : State) (bytes : List Byte) (address : Int) :
    loadProgram (hostReset s) bytes address = (loadProgram s bytes address).map hostReset := by
  by_cases hin : 0 ≤ address ∧ address + bytes.length ≤ s.cfg.memSize
  · rw [loadProgram_of_inside hin.1 hin.2, loadProgram_of_inside (s := hostReset s) hin.1 hin.2]; rfl
  · have hout : address < 0 ∨ (s.cfg.memSize : Int) < address + bytes.length := by omega
    rw [loadProgram_of_outside hout, loadProgram_of_outside (s := hostReset s) hout]; rfl

theorem Memory.get_writeBytes_add {m : Memory} {a k : Nat} {bs : List Byte} (hk : k < bs.length) :
    Memory.get (Memory.writeBytes m a bs) (a + k) = bs[k] := by
  simp [Memory.get_writeBytes, hk]

theorem Memory.get_writeBytes_other {m : Memory} {a k : Nat} {bs : List Byte} (hk : k < a ∨ a + bs.length ≤ k) :
    Memory.get (Memory.writeBytes m a bs) k = Memory.get m k := by
  rw [Memory.get_writeBytes, dif_neg (by omega)]

/-- A word is its four bytes, the lowest address least significant (R40). -/
theorem Memory.readLE_writeBytes_word (m : Memory) (a : Nat) (b0 b1 b2 b3 : Byte) :
    Memory.readLE (Memory.writeBytes m a [b0, b1, b2, b3]) a .word = b3 ++ b2 ++ b1 ++ b0 := by
  simp [Memory.readLE, Memory.get_writeBytes]

/-! ## The invariant -/

theorem State.launch_inv {cfg : Config} {mem : Memory} (hcfg : cfg.wf = true) (hwf : Memory.wf mem)
    (hwithin : Memory.within cfg.memSize mem) : (State.launch cfg mem).Inv where
  config := hcfg
  memCanonical := hwf
  memWithin := hwithin
  pcAligned := rfl
  pcLastFetchable := ⟨rfl, by obtain ⟨-, hmin, -⟩ := cfg.wf_iff.1 hcfg; exact hmin⟩
  instrLegal := by rintro i ⟨⟩

section
variable {s t : State} (hs : s.Inv)
include hs

theorem State.Inv.hostReset : (hostReset s).Inv := State.launch_inv hs.config hs.memCanonical hs.memWithin

theorem State.Inv.loadProgram {bytes : List Byte} {address : Int} (h : loadProgram s bytes address = .ok t) : t.Inv := by
  obtain ⟨h0, hend, rfl⟩ := loadProgram_eq_ok.1 h
  exact { hs with
    memCanonical := Memory.writeBytes_wf _ _ hs.memCanonical
    memWithin := Memory.writeBytes_within _ (by rw [State.setMem_cfg]; omega) hs.memWithin }

/-- The fetch gives what the invariant asks of `pcLast`, the decoder what it asks of `instr`, the effect the rest. -/
theorem State.Inv.step (h : step s = .next t) : t.Inv := by
  obtain ⟨w, i, hw, hi, hx⟩ := step_eq_next.1 h
  obtain ⟨haligned, hin, -⟩ := fetch_eq_ok.1 hw
  obtain ⟨e, rfl, he⟩ := exec_eq_next hx
  constructor
  case config => rw [retire_cfg]; exact hs.config
  case memCanonical => exact retire_mem_wf hs.memCanonical
  case memWithin => rw [retire_cfg]; exact he.retire_mem_within hs.memWithin
  case pcAligned => exact step_pc_aligned h
  case pcLastFetchable => rw [retire_pcLast, retire_cfg]; exact ⟨haligned, hin⟩
  case instrLegal =>
    intro j hj
    obtain rfl : i = j := Option.some.inj ((retire_instr i e s).symm.trans hj)
    rw [retire_cfg]
    exact ⟨wellFormed_of_decode hi, available_of_decode hi⟩

end

/-- Every operation of the driver keeps the invariant and the parameters. -/
theorem Reaches.inv {s t : State} (h : Reaches s t) (hs : s.Inv) : t.Inv ∧ t.cfg = s.cfg := by
  induction h with
  | start => exact ⟨hs, rfl⟩
  | step _ hstep ih => exact ⟨ih.1.step hstep, (step_cfg hstep).trans ih.2⟩
  | reset _ ih => exact ⟨ih.1.hostReset, ih.2⟩
  | load bytes address _ hload ih =>
    refine ⟨ih.1.loadProgram hload, ?_⟩
    obtain ⟨-, -, rfl⟩ := loadProgram_eq_ok.1 hload
    exact ih.2

/-! ## The statements -/

/-- Settles O3: the invariant's own step lemma. -/
theorem stepKeepsTheInvariant : Obligations.StepKeepsTheInvariant := fun _ _ hs h => hs.step h

/-- Settles O4: by induction on the driver's operations, from a launch state. -/
theorem everyReachableStateMeetsTheInvariant : Obligations.EveryReachableStateMeetsTheInvariant := by
  intro cfg mem t hcfg hwf hwithin h
  obtain ⟨hinv, hparams⟩ := h.inv (State.launch_inv hcfg hwf hwithin)
  exact ⟨hinv, hparams, step_ne_refused t⟩

/-- Settles O2: `State.reset` is the launch state of the standard parameters, which are legal, and of a memory with no entry. -/
theorem launchStatesMeetTheInvariant : Obligations.LaunchStatesMeetTheInvariant :=
  ⟨fun _ _ => State.launch_inv, State.launch_inv (by decide) ⟨.nil, by simp⟩ (by simp [Memory.within])⟩

/-- Settles O1: `reset()` gives the launch state, whose registers are `regsAtReset`. -/
theorem resetLeavesTheResetValues : Obligations.ResetLeavesTheResetValues :=
  fun s => ⟨RegFile.read_regsAtReset s.cfg.memSize, rfl, rfl, rfl, rfl, rfl, hostReset_eq_launch s⟩

/-- Settles O52: the bytes stand where `Memory.writeBytes` puts them, and the fetch reads four of them. -/
theorem loadProgramWritesAllOrNothing : Obligations.LoadProgramWritesAllOrNothing := by
  refine fun s bytes address => ⟨fun h0 hend => ⟨_, loadProgram_of_inside h0 hend, fun _ => rfl, rfl, rfl, rfl, rfl,
    fun _ hk => Memory.get_writeBytes_add hk, fun _ ha => Memory.get_writeBytes_other ha⟩, loadProgram_of_outside, ?_⟩
  rintro t b0 b1 b2 b3 rfl rfl haligned h
  obtain ⟨-, hend, rfl⟩ := loadProgram_eq_ok.1 h
  refine fetch_eq_ok.2 ⟨haligned, ?_, (Memory.readLE_writeBytes_word s.mem s.pc.toNat b0 b1 b2 b3).symm⟩
  exact_mod_cast hend

/-- Settles O53: the load after the reset is the load before it, with its state reset when it succeeds. -/
theorem resetAndLoadProgramCommute : Obligations.ResetAndLoadProgramCommute :=
  fun s bytes address => ⟨fun t h => by rw [loadProgram_hostReset, h]; rfl, fun e h => by rw [loadProgram_hostReset, h]; rfl⟩

/-- Settles O13: the four bytes are the fetched word. -/
theorem stepRunsTheDecodedInstruction : Obligations.StepRunsTheDecodedInstruction :=
  fun _ _ haligned hin hi => step_of_decoded (fetch_eq_ok.2 ⟨haligned, hin, rfl⟩) hi

/-- Settles O19: a legal effect stores only for a store. -/
theorem onlyStoresWriteMemory : Obligations.OnlyStoresWriteMemory := by
  intro i s t h hi a
  obtain ⟨e, rfl, he⟩ := exec_eq_next h
  rw [he.retire_mem_of_iType_ne hi]

/-- Settles O20: a legal effect writes the destination or no register. -/
theorem onlyTheDestinationRegisterChanges : Obligations.OnlyTheDestinationRegisterChanges := by
  intro i s t h
  have hframe : ∀ r, i.dest ≠ some r → t.x r = s.x r := by
    obtain ⟨e, rfl, he⟩ := exec_eq_next h
    exact fun r => he.retire_x_of_dest_ne
  refine ⟨hframe, exec_cfg h, fun hBS r => hframe r ?_, ?_⟩
  · simp [Instr.dest_of_iType hBS]
  · rintro fm pred succ rd rs1 rfl r
    exact hframe r (by simp [Instr.dest])

/-- Settles O22: the step's `pc` is aligned, so the next fetch can fail by its bounds alone. -/
theorem everyStepLeavesAnAlignedPc : Obligations.EveryStepLeavesAnAlignedPc :=
  fun _ _ h => ⟨step_pc_aligned h, fun hout => step_eq_fault_of_pc_outside (step_pc_aligned h) (step_cfg h ▸ hout)⟩

/-- Settles O23: a fetched word ends inside memory, which ends below 2^31. -/
theorem sequentialPcNeverWraps : Obligations.SequentialPcNeverWraps := by
  intro s w hcfg hw
  obtain ⟨-, -, hmax⟩ := s.cfg.wf_iff.1 hcfg
  obtain ⟨-, hin, -⟩ := fetch_eq_ok.1 hw
  have hseq : (s.pc + 4).toNat = s.pc.toNat + 4 := BitVec.toNat_add_of_lt (by simp; omega)
  exact ⟨hseq, hseq ▸ hin⟩

end Sys2Proof.Machine

/-! SUPPORT. The bytes of an integer, the values of the host's own reads and writes, and with them the rest of the statements of
20_memory.md. -/

namespace Sys2Proof.Machine

/-! ## The bytes of an integer (R36, R40) -/

/-- Cutting an integer to `n` bits keeps every byte below bit `n`. -/
theorem toNat_extractLsb'_ofInt (z : Int) {n k : Nat} (hk : 8 * k + 8 ≤ n) :
    (((BitVec.ofInt n z).extractLsb' (8 * k) 8).toNat : Int) = z / 256 ^ k % 256 := by
  obtain ⟨m, rfl⟩ := Nat.exists_eq_add_of_le hk
  have hpow : (2 : Int) ^ (8 * k + 8 + m) = 256 ^ k * (256 * 2 ^ m) := by
    rw [pow_add, pow_add, pow_mul]; ring
  have hsplit : z % 2 ^ (8 * k + 8 + m) = z + 256 ^ k * (256 * -(2 ^ m * (z / 2 ^ (8 * k + 8 + m)))) := by
    rw [Int.emod_def, hpow]; ring
  have hnonneg : 0 ≤ z % 2 ^ (8 * k + 8 + m) := Int.emod_nonneg z (by positivity)
  rw [BitVec.extractLsb'_toNat, BitVec.toNat_ofInt, Nat.shiftRight_eq_div_pow]
  push_cast
  rw [Int.toNat_of_nonneg hnonneg, pow_mul, hsplit, show (2 : Int) ^ 8 = 256 from rfl,
    Int.add_mul_ediv_left _ _ (by positivity), Int.add_mul_emod_self_left]

theorem Width.bytes_le_four (w : Width) : w.bytes ≤ 4 := by cases w <;> decide

/-- Byte `k` of a little-endian read is the byte of memory in the same place (R38). -/
theorem Memory.extractLsb'_readLE (m : Memory) (a : Nat) (w : Width) {k : Nat} (hk : k < w.bytes) :
    ((Memory.readLE m a w).setWidth (8 * w.bytes)).extractLsb' (8 * k) 8 = Memory.get m (a + k) := by
  ext b hb
  have hin : 8 * k + b < 8 * w.bytes := by omega
  have hdiv : (8 * k + b) / 8 = k := by omega
  have hmod : (8 * k + b) % 8 = b := by omega
  simp [Memory.readLE_getLsbD, hin, hdiv, hmod, hb]

/-! ## The host's own accesses (R35, R36) -/

theorem localWrite_of_inside {s : State} {address value : Int} {w : Width} (h0 : 0 ≤ address)
    (hend : address + w.bytes ≤ s.cfg.memSize) : localWrite s address w value =
      .ok (Memory.writeBytes s.mem address.toNat (bytesLE (BitVec.ofInt 32 value) w)) :=
  if_pos ((hostInBounds_iff _ _ _).2 ⟨h0, hend⟩)

theorem localWrite_of_outside {s : State} {address value : Int} {w : Width}
    (h : address < 0 ∨ (s.cfg.memSize : Int) < address + w.bytes) :
    localWrite s address w value = .error (.outOfBounds address w.bytes) :=
  if_neg fun hin => by rw [hostInBounds_iff] at hin; omega

theorem readRange_of_inside {s : State} {address : Int} {n : Nat} (h0 : 0 ≤ address)
    (hend : address + n ≤ s.cfg.memSize) :
    readRange s address n = .ok ((List.range' address.toNat n).map (Memory.get s.mem)) := by
  induction n generalizing address with
  | zero => rfl
  | succ n ih =>
    have hbyte : hostInBounds s.cfg address 1 = true := (hostInBounds_iff _ _ _).2 ⟨h0, by omega⟩
    have hnext : (address + 1).toNat = address.toNat + 1 := by omega
    rw [readRange, if_pos hbyte, ih (by omega) (by omega), hnext]
    rfl

/-- The byte the error names is the first of the range that is outside. -/
theorem readRange_of_outside {s : State} {address : Int} {n : Nat} (hn : n ≠ 0)
    (h : address < 0 ∨ (s.cfg.memSize : Int) < address + n) :
    ∃ b, readRange s address n = .error (.outOfBounds b 1) ∧ address ≤ b ∧ b < address + n ∧
      (b < 0 ∨ (s.cfg.memSize : Int) ≤ b) := by
  induction n generalizing address with
  | zero => contradiction
  | succ n ih =>
    by_cases hbyte : hostInBounds s.cfg address 1 = true
    · have hin := (hostInBounds_iff _ _ _).1 hbyte
      obtain ⟨b, hb, hlo, hhi, hout⟩ := ih (address := address + 1) (by omega) (by omega)
      exact ⟨b, by rw [readRange, if_pos hbyte, hb], by omega, by omega, hout⟩
    · have hout := mt (hostInBounds_iff _ _ _).2 hbyte
      exact ⟨address, by rw [readRange, if_neg hbyte], le_rfl, by omega, by omega⟩

/-! ## The statements -/

/-- Settles O50: the bits of `Memory.readLE`. -/
theorem memReadIsLittleEndian : Obligations.MemReadIsLittleEndian := by
  intro s a w
  refine ⟨fun hin => ⟨_, memRead_eq_ok.2 ⟨hin, rfl⟩, fun k hk => ?_, fun k hk => ?_⟩,
    fun hout => memRead_eq_error.2 ⟨Nat.not_le.2 hout, rfl⟩⟩
  · rw [Memory.readLE_getLsbD, decide_eq_true hk, Bool.true_and]
  · rw [Memory.readLE_getLsbD, decide_eq_false (Nat.not_lt.2 hk), Bool.false_and]

/-- Settles O55: the value is a signed number of the access's own width, whose bytes are those of the read; sign extension to 32
bits keeps it. -/
theorem localReadIsTheSignedMemRead : Obligations.LocalReadIsTheSignedMemRead := by
  refine ⟨fun s a w h0 hend => ?_, fun s a w => localRead_of_outside, fun s a v w h => ?_⟩
  · refine ⟨_, localRead_of_inside h0 hend, BitVec.le_toInt _, BitVec.toInt_lt, fun k hk => ?_⟩
    rw [← toNat_extractLsb'_ofInt (n := 8 * w.bytes) _ (by omega), BitVec.ofInt_toInt, Memory.extractLsb'_readLE _ _ _ hk]
  · obtain ⟨hin, rfl⟩ := memRead_eq_ok.1 h
    have hw : 8 * w.bytes ≤ 32 := Nat.mul_le_mul_left 8 w.bytes_le_four
    rw [localRead_of_inside (by omega) (by exact_mod_cast hin), sext, BitVec.toInt_signExtend_of_le hw, Int.toNat_natCast]

/-- Settles O56: the bytes written are those of the value cut to 32 bits, which are the integer's own. -/
theorem localWriteTruncates : Obligations.LocalWriteTruncates := by
  refine fun s a value w => ⟨fun h0 hend => ⟨_, localWrite_of_inside h0 hend, fun k hk => ?_, fun k hk => ?_⟩,
    localWrite_of_outside⟩
  · have hword : 8 * k + 8 ≤ 32 := by have := w.bytes_le_four; omega
    rw [Memory.get_writeBytes_add (by simpa using hk), getElem_bytesLE, toNat_extractLsb'_ofInt value hword]
  · exact Memory.get_writeBytes_other (by simpa using hk)

/-- Settles O57: the range inside memory is read byte by byte, and the first byte outside ends the read. -/
theorem rangeReadIsOneByteReads : Obligations.RangeReadIsOneByteReads := by
  refine fun s a n => ⟨fun h0 hend => ⟨_, readRange_of_inside h0 hend, by simp, fun k hk => by simp⟩, ?_,
    readRange_of_outside⟩
  rintro rfl
  rfl

end Sys2Proof.Machine

/-! SUPPORT. A load after a store, and with it the rest of the statements of 42_load_store.md and of the fetch's coherence with
stores (20_memory.md section 6). -/

namespace Sys2Proof.Machine

/-- The signed displacement is the unsigned one modulo 2^32. -/
theorem toNat_add_eq_toInt_emod (a b : Word) : ((a + b).toNat : Int) = (a.toNat + b.toInt) % 2 ^ 32 := by
  rw [BitVec.toNat_add, BitVec.toInt_eq_toNat_cond]
  split <;> omega

theorem zext_word (v : Word) : zext 32 v = v := by rw [zext, BitVec.setWidth_eq, BitVec.setWidth_eq]

theorem toNat_zext {n : Nat} (hn : n ≤ 32) (v : Word) : (zext n v).toNat = v.toNat % 2 ^ n := by
  rw [zext, BitVec.toNat_setWidth_of_le hn, BitVec.toNat_setWidth]

/-- Extending twice is extending once. -/
theorem zext_zext {n : Nat} (hn : n ≤ 32) (v : Word) : zext n (zext n v) = zext n v := by
  rw [zext, zext, BitVec.setWidth_setWidth_of_le _ hn, BitVec.setWidth_eq]

section
variable {i : Instr} {s t : State} {ea : Word} {w : Width} {v : Word}

/-- What a store that retires has done. -/
theorem of_storeEffect_eq_next (h : finish i (storeEffect s ea w v) s = .next t) :
    ea.toNat + w.bytes ≤ t.cfg.memSize ∧ t.mem = Memory.writeLE s.mem ea w v := by
  obtain ⟨e, he, rfl⟩ := finish_eq_next.1 h
  obtain ⟨hin, rfl⟩ := storeEffect_eq_ok.1 he
  exact ⟨by rwa [retire_cfg], retire_mem ..⟩

/-- A load where the store before it wrote gives its register the low bytes of what was stored, extended (R48). -/
theorem load_after_store {j : Instr} {ext : Word → Word} {rd : Reg} (hrd : rd ≠ 0)
    (hstore : finish i (storeEffect s ea w v) s = .next t)
    (hload : exec j t = finish j (loadEffect t ea w ext rd) t) :
    ∃ u, exec j t = .next u ∧ u.x rd = ext (zext (8 * w.bytes) v) := by
  obtain ⟨hin, hmem⟩ := of_storeEffect_eq_next hstore
  have hread : Memory.readLE t.mem ea.toNat w = zext (8 * w.bytes) v := by rw [hmem, Memory.readLE_writeLE]
  obtain ⟨u, hu, hx, -⟩ := writesRd_of_loadEffect w (P := (· = ext (zext (8 * w.bytes) v))) hload hin (by rw [hread])
  exact ⟨u, hu, hx hrd⟩

end

/-! ## The statements -/

/-- Settles O35: the sum of words is taken modulo 2^32, and a displacement's two readings are equal modulo 2^32. -/
theorem effectiveAddressWraps : Obligations.EffectiveAddressWraps :=
  fun s rs1 imm => ⟨BitVec.toNat_add .., toNat_add_eq_toInt_emod (s.x rs1) imm⟩

/-- Settles O40: the three pairs differ in their width, and the unsigned loads extend what is extended already. -/
theorem aLoadReturnsTheStoreBeforeIt : Obligations.ALoadReturnsTheStoreBeforeIt := by
  intro s t rs1 rs2 rd base imm disp hrd hea
  refine ⟨fun h => ?_, fun h => ?_, fun h => ?_⟩
  · obtain ⟨u, hu, hx⟩ := load_after_store (j := .lw rd base disp) (ext := fun v => v) hrd h (by rw [← hea]; rfl)
    exact ⟨u, hu, hx.trans (zext_word _)⟩
  · obtain ⟨u, hu, hx⟩ := load_after_store (j := .lhu rd base disp) (ext := zext 16) hrd h (by rw [← hea]; rfl)
    exact ⟨u, hu, by rw [hx, Width.bytes, zext_zext (by decide), toNat_zext (by decide)]⟩
  · obtain ⟨u, hu, hx⟩ := load_after_store (j := .lbu rd base disp) (ext := zext 8) hrd h (by rw [← hea]; rfl)
    exact ⟨u, hu, by rw [hx, Width.bytes, zext_zext (by decide), toNat_zext (by decide)]⟩

/-- Settles O41: the store leaves `pc` at the word it has written. -/
theorem aStoreIsSeenByTheNextFetch : Obligations.AStoreIsSeenByTheNextFetch := by
  intro s t rs1 rs2 imm haligned hea h
  have hpc : t.pc = s.pc + 4 := pc_of_storeEffect h
  obtain ⟨hin, hmem⟩ := of_storeEffect_eq_next (w := .word) (v := s.x rs2) h
  rw [hea, ← hpc] at hin hmem
  refine fetch_eq_ok.2 ⟨hpc ▸ toNat_add_four_aligned haligned, hin, ?_⟩
  rw [hmem, Memory.readLE_writeLE]
  exact (zext_word _).symm

end Sys2Proof.Machine

/-! SUPPORT. The targets of the transfers, and with them the rest of the statements of 43_control_transfer.md. -/

namespace Sys2Proof

/-! ## The offsets an encoding can hold are even (R63, R65) -/

theorem toNat_even_of_immFitsB {imm : Word} (h : immFitsB imm = true) : imm.toNat % 2 = 0 := by
  simp only [immFitsB, Bool.and_eq_true, beq_iff_eq] at h
  exact h.2

theorem toNat_even_of_immFitsJ {imm : Word} (h : immFitsJ imm = true) : imm.toNat % 2 = 0 := by
  simp only [immFitsJ, Bool.and_eq_true, beq_iff_eq] at h
  exact h.2

end Sys2Proof

namespace Sys2Proof.Machine

open Claims

theorem toNat_add_even {a b : Word} (ha : a.toNat % 4 = 0) (hb : b.toNat % 2 = 0) : (a + b).toNat % 2 = 0 := by bv_omega

section
variable {i : Instr} {s : State} {target : Word}

/-- The only target an instruction's own error can name is even: an even offset from an aligned `pc`, or JALR's (R125). -/
theorem ownError_target_even (hwf : i.wellFormed = true) (hpc : s.pc.toNat % 4 = 0)
    (h : ownError i s = some (.misalignedPC target)) : target.toNat % 2 = 0 := by
  cases i with
  | beq | bne | blt | bge | bltu | bgeu => cases h; exact toNat_add_even hpc (toNat_even_of_immFitsB hwf)
  | jal => cases h; exact toNat_add_even hpc (toNat_even_of_immFitsJ hwf)
  | jalr => cases h; rw [toNat_jalrTarget, Nat.mul_mod_left]
  | _ => cases h

/-- A taken transfer's own error names the target that R82 sends it to. -/
theorem ownError_of_taken (htaken : Taken i s) (hnext : NextPcs i s target) :
    ownError i s = some (.misalignedPC target) := by
  cases i with
  | beq | bne | blt | bge | bltu | bgeu => rw [show target = _ from hnext.trans (if_pos htaken)]; rfl
  | jal | jalr => rw [show target = _ from hnext]; rfl
  | _ => exact htaken.elim

/-- A taken transfer to an aligned target has no error to raise, so it retires there. -/
theorem exec_of_taken_aligned (htaken : Taken i s) (hnext : NextPcs i s target) (haligned : target.toNat % 4 = 0) :
    ∃ t, exec i s = .next t ∧ t.pc = target := by
  have hown := ownError_of_taken htaken hnext
  cases hx : exec i s with
  | next t =>
    have hpc := ownError_of_taken htaken (nextPcIsTheSequenceOrTheTarget i s t hx)
    rw [hown] at hpc
    cases hpc
    exact ⟨t, rfl, rfl⟩
  | fault f =>
    obtain ⟨hf, hdue⟩ := exec_eq_fault.1 hx
    obtain rfl : Fault.misalignedPC target = f := Option.some.inj (hown.symm.trans hf)
    exact absurd haligned hdue.2
  | refused r => exact absurd hx (exec_ne_refused i s r)

/-- A branch that is not taken does not look at its target. -/
theorem onlyMovesPc_of_not_taken (hB : i.iType = .B) (hnot : ¬ Taken i s) : OnlyMovesPc i s (s.pc + 4) := by
  cases i with
  | beq rs1 rs2 imm => exact (equalityBranches.1 s rs1 rs2 imm).1 hnot
  | bne rs1 rs2 imm => exact (equalityBranches.2.1 s rs1 rs2 imm).1 hnot
  | blt rs1 rs2 imm => exact (signedBranches.1 s rs1 rs2 imm).1 hnot
  | bge rs1 rs2 imm => exact (signedBranches.2.1 s rs1 rs2 imm).1 hnot
  | bltu rs1 rs2 imm => exact (unsignedBranches.1 s rs1 rs2 imm).1 hnot
  | bgeu rs1 rs2 imm => exact (unsignedBranches.2.1 s rs1 rs2 imm).1 hnot
  | _ => cases hB

end

/-- Settles O47: the target that is checked is even, and the check is of the target alone. -/
theorem onlyTargetsTwoModuloFourAreMisaligned : Obligations.OnlyTargetsTwoModuloFourAreMisaligned := by
  refine ⟨fun i s target hwf hpc h => ?_, fun i s => onlyMovesPc_of_not_taken, fun i s target htaken hnext haligned hout => ?_⟩
  · obtain ⟨hown, -, hmis⟩ := exec_eq_fault.1 h
    have heven := ownError_target_even hwf hpc hown
    omega
  · obtain ⟨t, hx, rfl⟩ := exec_of_taken_aligned htaken hnext haligned
    exact ⟨t, hx, rfl, step_eq_fault_of_pc_outside haligned (exec_cfg hx ▸ hout)⟩

end Sys2Proof.Machine

/-! SUPPORT. The division law of 45_muldiv.md, between the quotient and the remainder that two instructions write. -/

namespace Sys2Proof.Machine

theorem x_of_regEffect {i : Instr} {s t : State} {rd : Reg} {v : Word} (hrd : rd ≠ 0)
    (h : finish i (regEffect s rd v) s = .next t) : t.x rd = v := by
  obtain ⟨e, he, rfl⟩ := finish_eq_next.1 h
  cases he
  simp [retire_x, hrd]

/-- The remainder of a division that rounds toward zero is smaller than the divisor. -/
theorem natAbs_tmod_lt (a : Int) {b : Int} (hb : b ≠ 0) : (a.tmod b).natAbs < b.natAbs := by
  rw [Int.natAbs_tmod]
  exact Nat.mod_lt _ (Int.natAbs_pos.2 hb)

/-- It is not positive when the dividend is not. -/
theorem tmod_nonpos {a : Int} (b : Int) (ha : a ≤ 0) : a.tmod b ≤ 0 := by
  have h := Int.tmod_nonneg b (Int.neg_nonneg_of_nonpos ha)
  rw [Int.neg_tmod] at h
  omega

/-- Settles O34: the remainder is what the quotient leaves, so the law is the library's of truncating and of natural division. -/
theorem divisionLaw : Obligations.DivisionLaw := by
  refine ⟨fun s t u rd rd' rs1 rs2 hrd hrd' hb hover hdiv hrem => ?_, fun s t u rd rd' rs1 rs2 hrd hrd' hb hdiv hrem => ?_⟩
  · have hb' : (s.x rs2).toInt ≠ 0 := fun h => hb (BitVec.toInt_inj.1 h)
    rw [x_of_regEffect hrd hdiv, x_of_regEffect hrd' hrem, toInt_divSigned hb hover, toInt_remSigned hb hover, ← Int.tmod_def]
    refine ⟨(Int.mul_tdiv_add_tmod _ _).symm, natAbs_tmod_lt _ hb', fun hpos => ?_, fun hneg => ?_⟩
    · exact not_le.1 fun ha => absurd (tmod_nonpos _ ha) (not_le.2 hpos)
    · exact not_le.1 fun ha => absurd (Int.tmod_nonneg _ ha) (not_le.2 hneg)
  · have hb' : 0 < (s.x rs2).toNat := Nat.pos_of_ne_zero fun h => hb (BitVec.toNat_inj.1 h)
    rw [x_of_regEffect hrd hdiv, x_of_regEffect hrd' hrem, toNat_divUnsigned hb, toNat_remUnsigned hb]
    exact ⟨(Nat.div_add_mod _ _).symm, Nat.mod_lt _ hb'⟩

end Sys2Proof.Machine
